-- ==== Sys2Proof/Word.lean ====
section
/-!
DEFINITION. The one data width of the hardware: every register, every memory cell, every operand and the program
counter is an unsigned 8-bit number (00_scope.md R6; 10_state.md R12, R15, R18).
-/

namespace Sys2Proof

/-- An unsigned 8-bit number: a register's value, a memory cell, an operand byte, a program-counter value. -/
abbrev Byte := BitVec 8

end Sys2Proof
end

