-- ==== Sys2Proof/Config.lean ====
section
/-!
DEFINITION. What the implementation fixes: the parameters of 00_scope.md R5. The sizes are constants of the spec. `OPC`
is a map from the 25 operations to their opcode bytes (30_encoding.md R56, R64); its default value stands in
Sys2Proof/Decode.lean. `UNKNOWN_OPCODE_POLICY` is OPEN in the spec (decision D3) and has no body here.
-/

namespace Sys2Proof

/-- `MEM_SIZE`: the number of memory cells (00_scope.md R5). -/
abbrev Config.memSize : Nat := 256

/-- `NUM_REGS`: the number of general registers (00_scope.md R5). -/
abbrev Config.numRegs : Nat := 8

/-- A register index, 0 to 7. -/
abbrev RegIndex := Fin Config.numRegs

/-- `SP_INDEX`: the register that is the stack pointer (00_scope.md R5). -/
abbrev Config.spIndex : RegIndex := 7

/-- `SP_INIT`: the stack pointer after reset (00_scope.md R5). -/
abbrev Config.spInit : Byte := 0xF4

/-- `PC_RESET`: the program counter after reset (00_scope.md R5). -/
abbrev Config.pcReset : Byte := 0

/-- `LOAD_BASE`: the address of the first byte of a program image (00_scope.md R5). -/
abbrev Config.loadBase : Nat := 0

/-- The 25 operations, the index of the parameter `OPC` (30_encoding.md R56). -/
inductive Opcode where
  | hlt | ret | push | pop | prn | call | jmp | jeq | jne | jgt | jlt | jle | jge | not
  | ldi | add | sub | mul | mod | cmp | and | or | xor | shl | shr
  deriving DecidableEq, Repr

/-- All 25 operations, in the order of spec/opcode_table.json. -/
def Opcode.all : List Opcode :=
  [.hlt, .ret, .push, .pop, .prn, .call, .jmp, .jeq, .jne, .jgt, .jlt, .jle, .jge, .not,
   .ldi, .add, .sub, .mul, .mod, .cmp, .and, .or, .xor, .shl, .shr]

/-- The number of operand bytes of each operation: none for format `Z`, one for `R`, two for `RR` and `RI`
(30_encoding.md R52, R53). -/
def Opcode.operandCount : Opcode → Nat
  | .hlt | .ret => 0
  | .push | .pop | .prn | .call | .jmp | .jeq | .jne | .jgt | .jlt | .jle | .jge | .not => 1
  | .ldi | .add | .sub | .mul | .mod | .cmp | .and | .or | .xor | .shl | .shr => 2

/-- The parameter `OPC`: the opcode byte of each operation (00_scope.md R5). -/
abbrev OpcodeMap := Opcode → Byte

/-- The parameter `UNKNOWN_OPCODE_POLICY` (00_scope.md R5; 40_sequencer.md R76; decision D3). -/
inductive UnknownOpcodePolicy where
  /-- An unknown opcode raises `UnknownOpcode`. -/
  | strict
  /-- An unknown opcode only advances the program counter by its size field plus one. -/
  | permissive
  deriving DecidableEq, Repr, Inhabited

/-- The arguments of the model: `OPC` and `UNKNOWN_OPCODE_POLICY` (00_scope.md R5). -/
structure Config where
  /-- The parameter `OPC`. -/
  opc : OpcodeMap
  /-- The parameter `UNKNOWN_OPCODE_POLICY`. -/
  unknownOpcodePolicy : UnknownOpcodePolicy

/-- The policy of the machine at hand. The spec leaves it OPEN (decision D3), so it has no body: nothing can be proved
that holds for one policy only. Log entry 1. -/
opaque Config.openPolicy : UnknownOpcodePolicy

end Sys2Proof
end

