-- ==== Sys2Proof/WellFormed.lean ====
section
/-!
DEFINITION. Which instructions have legal operands. The only illegal operand is a register-index byte of 8 to 255
(30_encoding.md R54, R59); an immediate has no illegal value. An ill-formed instruction still decodes and executes: it
raises `OutOfRange` when it accesses the register its byte does not name.
-/

namespace Sys2Proof

/-- A register operand byte names a register when it is 0 to 7 (30_encoding.md R54). -/
abbrev namesRegister (v : Byte) : Prop := v.toNat < Config.numRegs

/-- The operand bytes an instruction uses as register indices, operand a before operand b (30_encoding.md R52, R53). -/
def Instr.registerOperands : Instr → List Byte
  | .hlt | .ret => []
  | .push a | .pop a | .prn a | .call a | .jmp a | .jeq a | .jne a | .jgt a | .jlt a | .jle a | .jge a | .not a => [a]
  | .ldi a _ => [a]
  | .add a b | .sub a b | .mul a b | .mod a b | .cmp a b | .and a b | .or a b | .xor a b | .shl a b | .shr a b => [a, b]

/-- Every register operand byte of the instruction is 0 to 7. -/
abbrev Instr.WellFormed (i : Instr) : Prop := ∀ v ∈ i.registerOperands, namesRegister v

end Sys2Proof
end

