-- ==== Sys2Proof/Decode.lean ====
section
/-!
DEFINITION. The decoder (30_encoding.md; 40_sequencer.md R72), total on all bytes and rejecting by name, the encoder
written from the same tables, and the default of the parameter `OPC`. Every register and literal operand is a whole
byte, so no field is extracted but the size field.
-/

namespace Sys2Proof

/-- The default of the parameter `OPC`: the table of 30_encoding.md R56. UNVERIFIED: the spec gives these values as
general knowledge (decision D13; K1), unsafe if the hardware uses others; log entry 2. -/
def opc : OpcodeMap
  | .hlt => 0x01
  | .ret => 0x11
  | .push => 0x45
  | .pop => 0x46
  | .prn => 0x47
  | .call => 0x50
  | .jmp => 0x54
  | .jeq => 0x55
  | .jne => 0x56
  | .jgt => 0x57
  | .jlt => 0x58
  | .jle => 0x59
  | .jge => 0x5A
  | .not => 0x69
  | .ldi => 0x82
  | .add => 0xA0
  | .sub => 0xA1
  | .mul => 0xA2
  | .mod => 0xA4
  | .cmp => 0xA7
  | .and => 0xA8
  | .or => 0xAA
  | .xor => 0xAB
  | .shl => 0xAC
  | .shr => 0xAD

/-- The configuration of the machine at hand: the default `OPC`, and the policy the spec leaves open. -/
def machineConfig : Config := ⟨opc, Config.openPolicy⟩

/-- The size field, bits 7:6 of an opcode byte: the number of operand bytes (30_encoding.md R51). -/
def sizeField (ir : Byte) : Nat := (ir.extractLsb 7 6).toNat

/-- The length in bytes an opcode byte announces, defined opcode or not (30_encoding.md R51, R60). -/
def instrSize (ir : Byte) : Nat := sizeField ir + 1

/-- What any replacement of the parameter `OPC` must meet: the 25 values are distinct and bits 7:6 of each give its
number of operand bytes (30_encoding.md R64). -/
def OpcodeMap.Legal (m : OpcodeMap) : Prop :=
  (∀ o o', m o = m o' → o = o') ∧ ∀ o, sizeField (m o) = o.operandCount

/-- Why the decoder rejects. -/
inductive DecodeError where
  /-- The byte matches none of the 25 opcodes (30_encoding.md R58, R63); what the step then does is 40_sequencer.md R76. -/
  | unknownOpcode (ir : Byte)
  /-- Fewer bytes than the three the decoder reads (40_sequencer.md R71). -/
  | tooFewBytes
  deriving DecidableEq, Repr

/-- The exact match of the whole opcode byte against the values of `OPC` (30_encoding.md R63). -/
def opcodeOf? (m : OpcodeMap) (ir : Byte) : Option Opcode := Opcode.all.find? fun o => m o == ir

/-- The instruction of an operation and the two operand bytes; a byte the format does not have is ignored
(30_encoding.md R52, R53). -/
def instrOf : Opcode → Byte → Byte → Instr
  | .hlt, _, _ => .hlt
  | .ret, _, _ => .ret
  | .push, a, _ => .push a
  | .pop, a, _ => .pop a
  | .prn, a, _ => .prn a
  | .call, a, _ => .call a
  | .jmp, a, _ => .jmp a
  | .jeq, a, _ => .jeq a
  | .jne, a, _ => .jne a
  | .jgt, a, _ => .jgt a
  | .jlt, a, _ => .jlt a
  | .jle, a, _ => .jle a
  | .jge, a, _ => .jge a
  | .not, a, _ => .not a
  | .ldi, a, imm => .ldi a imm
  | .add, a, b => .add a b
  | .sub, a, b => .sub a b
  | .mul, a, b => .mul a b
  | .mod, a, b => .mod a b
  | .cmp, a, b => .cmp a b
  | .and, a, b => .and a b
  | .or, a, b => .or a b
  | .xor, a, b => .xor a b
  | .shl, a, b => .shl a b
  | .shr, a, b => .shr a b

/-- Decoding of the three fetched bytes under a given `OPC` (40_sequencer.md R72). -/
def decodeWith (m : OpcodeMap) (ir opa opb : Byte) : Except DecodeError Instr :=
  match opcodeOf? m ir with
  | some o => .ok (instrOf o opa opb)
  | none => .error (.unknownOpcode ir)

/-- Decoding under the default `OPC`. -/
def decode (ir opa opb : Byte) : Except DecodeError Instr := decodeWith opc ir opa opb

/-- Decoding of the first three bytes of a list, any list. -/
def decodeBytesWith (m : OpcodeMap) : List Byte → Except DecodeError Instr
  | ir :: opa :: opb :: _ => decodeWith m ir opa opb
  | _ => .error .tooFewBytes

/-- The operation of an instruction. -/
def Instr.opcode : Instr → Opcode
  | .hlt => .hlt
  | .ret => .ret
  | .push _ => .push
  | .pop _ => .pop
  | .prn _ => .prn
  | .call _ => .call
  | .jmp _ => .jmp
  | .jeq _ => .jeq
  | .jne _ => .jne
  | .jgt _ => .jgt
  | .jlt _ => .jlt
  | .jle _ => .jle
  | .jge _ => .jge
  | .not _ => .not
  | .ldi _ _ => .ldi
  | .add _ _ => .add
  | .sub _ _ => .sub
  | .mul _ _ => .mul
  | .mod _ _ => .mod
  | .cmp _ _ => .cmp
  | .and _ _ => .and
  | .or _ _ => .or
  | .xor _ _ => .xor
  | .shl _ _ => .shl
  | .shr _ _ => .shr

/-- The operand bytes of an instruction in ascending address order (30_encoding.md R50, R52). -/
def Instr.operandBytes : Instr → List Byte
  | .hlt | .ret => []
  | .push a | .pop a | .prn a | .call a | .jmp a | .jeq a | .jne a | .jgt a | .jlt a | .jle a | .jge a | .not a => [a]
  | .ldi a imm => [a, imm]
  | .add a b | .sub a b | .mul a b | .mod a b | .cmp a b | .and a b | .or a b | .xor a b | .shl a b | .shr a b => [a, b]

/-- The bytes of an instruction under a given `OPC`: the opcode byte, then the operand bytes (30_encoding.md R50, R52). -/
def encodeWith (m : OpcodeMap) (i : Instr) : List Byte := m i.opcode :: i.operandBytes

/-- The bytes of an instruction under the default `OPC`. -/
def encode (i : Instr) : List Byte := encodeWith opc i

/-- The three bytes of an instruction whose bits are `w`, byte 0 least significant; bits from `nbits` up are 0. -/
def tableBytes (nbits w : Nat) : Byte × Byte × Byte :=
  let v := w % 2 ^ nbits
  (BitVec.ofNat 8 v, BitVec.ofNat 8 (v / 2 ^ 8), BitVec.ofNat 8 (v / 2 ^ 16))

/-- What the decoder reads from an instruction whose bits are `w`, numbered as spec/opcode_table.json numbers them. -/
def decodeTableWord (nbits w : Nat) : Option Instr :=
  let (ir, opa, opb) := tableBytes nbits w
  (decode ir opa opb).toOption

end Sys2Proof
end

