-- ==== Sys2Proof/Machine/State.lean ====
section
/-!
DEFINITION. The whole state of the hardware, the eight items of 10_state.md R10 and nothing else, as plain data; its
reset value (10_state.md R24); and the reasons a step of the model can stop the host.

A fault of the SPEC is not a stop of the model: the spec says what raising one does (60_exceptions.md R148), so it is a
next state whose run state is `faulted`.
-/

namespace Sys2Proof.Machine

/-- The three condition flags `L`, `G`, `E`, three independent one-bit storage elements (10_state.md R16). -/
structure Flags where
  /-- The flag `L`. -/
  less : Bool
  /-- The flag `G`. -/
  greater : Bool
  /-- The flag `E`. -/
  equal : Bool
  deriving DecidableEq, Repr

/-- The sub-cause of `OutOfRange` and the offending value (60_exceptions.md R143). -/
inductive OutOfRangeCause where
  /-- An address above 255 presented to memory or to the program counter. -/
  | memory (addr : Nat)
  /-- An operand byte of 8 to 255 used as a register index. -/
  | register (v : Byte)
  deriving DecidableEq, Repr

/-- The fault report: the kind and the information recorded with it (60_exceptions.md R145). `pc` is always the address
of the opcode byte of the instruction whose step faulted. -/
inductive FaultReport where
  /-- Raised by the decoder under the strict policy (60_exceptions.md R141). -/
  | unknownOpcode (pc ir : Byte)
  /-- Raised by MOD with a zero divisor (60_exceptions.md R142). -/
  | moduloByZero (pc : Byte)
  /-- Raised by the fetch, by the program-counter advance, and by every instruction with a register operand
  (60_exceptions.md R143). -/
  | outOfRange (cause : OutOfRangeCause) (pc : Byte)
  /-- Raised by nothing: listed so that the document's four kinds are all named (60_exceptions.md R144). -/
  | unsupportedAluOp
  deriving DecidableEq, Repr

/-- The run state (10_state.md R19). -/
inductive RunState where
  /-- The next step executes the instruction at `pc`. -/
  | running
  /-- HLT was executed. -/
  | halted
  /-- A step raised a fault. -/
  | faulted (report : FaultReport)
  deriving DecidableEq, Repr

/-- Memory: the cells that hold something other than 0, addresses strictly rising. Every unlisted cell holds 0, the reset
value of all 256 cells (10_state.md R18, R24). -/
abbrev Memory := List Host.Cell

/-- The state of the hardware (10_state.md R10). -/
structure State where
  /-- The general registers `x[0]` to `x[7]`; `x[7]` is the stack pointer (R11, R12, R14). -/
  regs : Vector Byte Config.numRegs
  /-- The program counter (R15). -/
  pc : Byte
  /-- The flags `L`, `G`, `E` (R16). -/
  flags : Flags
  /-- The memory `M[0]` to `M[255]` (R18). -/
  mem : Memory
  /-- The run state (R19). -/
  run : RunState
  /-- The output stream, oldest value first (R20). -/
  out : List Byte
  deriving DecidableEq, Repr

/-- The machine right after reset (10_state.md R24): registers 0 to 6 zero, register 7 the stack's initial address,
everything else zero, running, nothing printed. -/
def State.reset : State where
  regs := #v[0, 0, 0, 0, 0, 0, 0, Config.spInit]
  pc := Config.pcReset
  flags := ⟨false, false, false⟩
  mem := []
  run := .running
  out := []

/-- Why a step stops the host with a fault: for no reason. Every fault of the spec has an entry the spec describes
(60_exceptions.md R148) and is a next state, so this type has no constructor: no step answers a host fault, by its
type. Safe. Log entry 3. -/
inductive Fault where
  deriving DecidableEq, Repr

/-- Why the model refuses. No step of the machine and no instruction refuses; the last three are refusals of operations
of the host (Machine/HostInterface.lean, Machine/Ports.lean). -/
inductive Refusal where
  /-- An instruction without a meaning yet: raised by no arm of exec. Safe. -/
  | notModelled (mnemonic : String)
  /-- Raised by the host operation load on an image of more than 256 bytes (70_reset_and_hazards.md R171; decision D16).
  Safe: the core is unchanged. -/
  | imageTooLong (length : Nat)
  /-- Raised by the host operation load, and by the port `load_en`, after the first step since reset
  (70_reset_and_hazards.md R171, R182; decision D16). Safe: the core is unchanged. -/
  | loadOutsideWindow
  /-- Raised by a clock edge with both `step_en` and `load_en` at 1, for which the spec gives no effect
  (70_reset_and_hazards.md R182). Safe: the core is unchanged. -/
  | portConflict
  deriving DecidableEq, Repr

end Sys2Proof.Machine
end

