-- ==== Sys2Proof/Machine/Ops.lean ====
section
/-!
DEFINITION. The named operations over the state (00_scope.md R7): registers, memory, the stack, the output stream, the
program-counter incrementer, and the entry into a fault.

An operation that can raise answers `Except FaultReport`: a meaning is a chain of such operations, so the first condition
that holds in the order written is the one reported, and nothing written before it survives (40_sequencer.md R73;
60_exceptions.md R147, R148).
-/

namespace Sys2Proof.Machine

/-- What an instruction or a step answers. -/
abbrev Result := Host.Outcome State Fault Refusal

/-- `trunc8(v) = v mod 256`, on unbounded integers (00_scope.md R6). -/
def trunc8 (v : Int) : Byte := BitVec.ofInt 8 v

/-! ## Registers, flags, program counter, run state, output -/

/-- `x[i]` (00_scope.md R7). -/
def State.reg (s : State) (i : RegIndex) : Byte := s.regs[i]

/-- `x[i] <- v` (00_scope.md R7). No register is hard-wired or read-only (10_state.md R11). -/
def State.setReg (s : State) (i : RegIndex) (v : Byte) : State := { s with regs := s.regs.set i v }

/-- `sp`, the same as `x[7]` (10_state.md R14). -/
def State.sp (s : State) : Byte := s.reg Config.spIndex

/-- `sp <- v`, the same as `x[7] <- v` (10_state.md R14). -/
def State.setSp (s : State) (v : Byte) : State := s.setReg Config.spIndex v

/-- `pc <- target` (00_scope.md R7). -/
def State.setPc (s : State) (target : Byte) : State := { s with pc := target }

/-- The three flags written at once (10_state.md R16). -/
def State.setFlags (s : State) (f : Flags) : State := { s with flags := f }

/-- The memory replaced. -/
def State.setMem (s : State) (m : Memory) : State := { s with mem := m }

/-- `run <- r` (10_state.md R19). -/
def State.setRun (s : State) (r : RunState) : State := { s with run := r }

/-- `Output(v)`: one value appended to the output stream (10_state.md R20). -/
def State.output (s : State) (v : Byte) : State := { s with out := s.out ++ [v] }

/-! ## Taking a fault -/

/-- Fault entry (60_exceptions.md R148): the run state records the report, and nothing else changes. -/
def takeFault (r : FaultReport) (s : State) : State := s.setRun (.faulted r)

/-- The end of an instruction that began in `s`: its writes take effect together, or it raised a fault and none does
(60_exceptions.md R148; 40_sequencer.md R79). -/
def complete (s : State) : Except FaultReport State → Result
  | .ok t => .next t
  | .error r => .next (takeFault r s)

/-! ## Memory -/

/-- What the cell at an address holds; an unlisted cell holds 0 (10_state.md R24). -/
def Memory.read : Memory → Nat → Byte
  | [], _ => 0#8
  | (a, v) :: m, addr => if addr = a then v else Memory.read m addr

/-- A memory with one cell written. The canonical form is kept: writing 0 removes the entry. -/
def Memory.write : Memory → Nat → Byte → Memory
  | [], addr, v => if v = 0#8 then [] else [(addr, v)]
  | (a, w) :: m, addr, v =>
    if addr < a then (if v = 0#8 then (a, w) :: m else (addr, v) :: (a, w) :: m)
    else if addr = a then (if v = 0#8 then m else (a, v) :: m)
    else (a, w) :: Memory.write m addr v

/-- Consecutive cells from an address upward, written with the bytes of a list. -/
def Memory.writeBytes : Memory → Nat → List Byte → Memory
  | m, _, [] => m
  | m, addr, v :: vs => Memory.writeBytes (m.write addr v) (addr + 1) vs

/-- Every address of the list is above a bound, in the address space, and strictly below the next; no entry holds 0. -/
def Memory.wfFrom (lo : Nat) : Memory → Bool
  | [] => true
  | (a, v) :: m => decide (lo ≤ a) && decide (a < Config.memSize) && decide (v ≠ 0#8) && Memory.wfFrom (a + 1) m

/-- The canonical form of a memory: addresses strictly rising and below 256, no entry equal to what an unlisted address
reads as. -/
def Memory.wf (m : Memory) : Bool := Memory.wfFrom 0 m

/-- `MemRead(addr, 1)` (20_memory.md R31). -/
def memRead (addr : Nat) (s : State) : Except FaultReport Byte :=
  if addr < Config.memSize then .ok (s.mem.read addr) else .error (.outOfRange (.memory addr) s.pc)

/-- `MemWrite(addr, 1, v)` (20_memory.md R31). -/
def memWrite (addr : Nat) (v : Byte) (s : State) : Except FaultReport State :=
  if addr < Config.memSize then .ok (s.setMem (s.mem.write addr v)) else .error (.outOfRange (.memory addr) s.pc)

/-! ## The program-counter incrementer -/

/-- `advance(n)` at the end of an instruction that began in `s` and whose writes give `t`: the sum is taken on unbounded
integers and does not wrap (40_sequencer.md R75). -/
def advance (n : Nat) (s t : State) : Except FaultReport State :=
  if s.pc.toNat + n < Config.memSize then .ok (t.setPc (BitVec.ofNat 8 (s.pc.toNat + n)))
  else .error (.outOfRange (.memory (s.pc.toNat + n)) s.pc)

/-! ## The stack -/

/-- The cell a push writes: the stack pointer after the decrement, modulo 256 (42_data_stack.md R112, R116). -/
def pushAddress (s : State) : Byte := trunc8 ((s.sp.toNat : Int) - 1)

/-- The first action of a push: the stack pointer decremented (42_data_stack.md R112). -/
def decrementSp (s : State) : State := s.setSp (pushAddress s)

/-- The second action of a pop: the stack pointer, as it then is, incremented (42_data_stack.md R113). -/
def incrementSp (s : State) : State := s.setSp (trunc8 (s.sp.toNat + 1))

/-- Decrement the stack pointer, then write the value `src` has in the decremented state at the new stack pointer
(42_data_stack.md R112; 43_control_compare.md R130). -/
def pushByte (src : State → Byte) (s : State) : Except FaultReport State :=
  memWrite (decrementSp s).sp.toNat (src (decrementSp s)) (decrementSp s)

/-- Read the byte at the stack pointer (42_data_stack.md R113; 43_control_compare.md R131). -/
def topOfStack (s : State) : Except FaultReport Byte := memRead s.sp.toNat s

end Sys2Proof.Machine
end

