-- ==== Sys2Proof/Machine/Operands.lean ====
section
/-!
DEFINITION. Every operand form of the spec: the register operand (30_encoding.md R54). The immediate of LDI is its
operand byte as it stands (R55), and there is no other form.
-/

namespace Sys2Proof.Machine

/-- A register operand byte `v`: the register it names, or `OutOfRange(register, v)` when it is 8 or more. It is neither
masked nor reduced (30_encoding.md R54; decision D7). -/
def regOperand (v : Byte) (s : State) : Except FaultReport RegIndex :=
  if h : namesRegister v then .ok ⟨v.toNat, h⟩ else .error (.outOfRange (.register v) s.pc)

end Sys2Proof.Machine
end

