-- ==== Sys2Proof/Machine/Alu.lean ====
section
/-!
DEFINITION. The ALU instructions ADD, SUB, MUL, AND, OR, XOR, NOT, SHL, SHR, MOD (41_alu.md). A result is computed on
unbounded integers and truncated at the end (R90, R102).
-/

namespace Sys2Proof.Machine

/-- The ALU operation select: a closed set of ten values, so `UnsupportedAluOp` cannot arise (41_alu.md R101). -/
inductive AluOp where
  | add | sub | mul | and | or | xor | not | shl | shr | mod
  deriving DecidableEq, Repr

/-- ADD (41_alu.md R91). -/
def addResult (u v : Byte) : Byte := trunc8 ((u.toNat : Int) + v.toNat)

/-- SUB (41_alu.md R92). -/
def subResult (u v : Byte) : Byte := trunc8 ((u.toNat : Int) - v.toNat)

/-- MUL: the low 8 bits of the product (41_alu.md R93). -/
def mulResult (u v : Byte) : Byte := trunc8 ((u.toNat : Int) * v.toNat)

/-- AND (41_alu.md R94). -/
def andResult (u v : Byte) : Byte := u &&& v

/-- OR (41_alu.md R95). -/
def orResult (u v : Byte) : Byte := u ||| v

/-- XOR (41_alu.md R96). -/
def xorResult (u v : Byte) : Byte := u ^^^ v

/-- NOT, the bitwise complement (41_alu.md R97). -/
def notResult (u : Byte) : Byte := u ^^^ 0xFF

/-- SHL: the count is the whole register value, not masked (41_alu.md R98; decision D2). -/
def shlResult (u n : Byte) : Byte := trunc8 ((u.toNat * 2 ^ n.toNat : Nat) : Int)

/-- SHR: the count is the whole register value, zeros enter from the left (41_alu.md R99; decision D2). -/
def shrResult (u n : Byte) : Byte := trunc8 ((u.toNat / 2 ^ n.toNat : Nat) : Int)

/-- MOD, for a divisor other than 0; the zero divisor is turned away before (41_alu.md R100). -/
def modResult (u v : Byte) : Byte := trunc8 ((u.toNat % v.toNat : Nat) : Int)

/-- The ALU (41_alu.md R90): the result of the selected operation; NOT ignores its second input. -/
def aluResult : AluOp → Byte → Byte → Byte
  | .add, u, v => addResult u v
  | .sub, u, v => subResult u v
  | .mul, u, v => mulResult u v
  | .and, u, v => andResult u v
  | .or, u, v => orResult u v
  | .xor, u, v => xorResult u v
  | .not, u, _ => notResult u
  | .shl, u, n => shlResult u n
  | .shr, u, n => shrResult u n
  | .mod, u, v => modResult u v

/-- What the two-register ALU instructions share (41_alu.md R90, R103): operand a checked, then b; both sources read; the
result written to `x[a]`; `advance(3)`. -/
def aluTwo (op : AluOp) (a b : Byte) (s : State) : Result :=
  complete s do
    let i ← regOperand a s
    let j ← regOperand b s
    advance 3 s (s.setReg i (aluResult op (s.reg i) (s.reg j)))

/-- ADD `Ra,Rb` (41_alu.md R91). -/
def execAdd (a b : Byte) (s : State) : Result := aluTwo .add a b s

/-- SUB `Ra,Rb` (41_alu.md R92). -/
def execSub (a b : Byte) (s : State) : Result := aluTwo .sub a b s

/-- MUL `Ra,Rb` (41_alu.md R93). -/
def execMul (a b : Byte) (s : State) : Result := aluTwo .mul a b s

/-- AND `Ra,Rb` (41_alu.md R94). -/
def execAnd (a b : Byte) (s : State) : Result := aluTwo .and a b s

/-- OR `Ra,Rb` (41_alu.md R95). -/
def execOr (a b : Byte) (s : State) : Result := aluTwo .or a b s

/-- XOR `Ra,Rb` (41_alu.md R96). -/
def execXor (a b : Byte) (s : State) : Result := aluTwo .xor a b s

/-- NOT `Ra` (41_alu.md R97): one operand; operand byte b is never looked at. -/
def execNot (a : Byte) (s : State) : Result :=
  complete s do
    let i ← regOperand a s
    advance 2 s (s.setReg i (aluResult .not (s.reg i) 0))

/-- SHL `Ra,Rb` (41_alu.md R98). -/
def execShl (a b : Byte) (s : State) : Result := aluTwo .shl a b s

/-- SHR `Ra,Rb` (41_alu.md R99). -/
def execShr (a b : Byte) (s : State) : Result := aluTwo .shr a b s

/-- The divisor check of MOD: `ModuloByZero(pc)` when the divisor register holds 0 (41_alu.md R100). -/
def checkDivisor (v : Byte) (s : State) : Except FaultReport Unit :=
  if v = 0#8 then .error (.moduloByZero s.pc) else .ok ()

/-- MOD `Ra,Rb` (41_alu.md R100): the register checks, then the divisor, then the advance. -/
def execMod (a b : Byte) (s : State) : Result :=
  complete s do
    let i ← regOperand a s
    let j ← regOperand b s
    checkDivisor (s.reg j) s
    advance 3 s (s.setReg i (aluResult .mod (s.reg i) (s.reg j)))

end Sys2Proof.Machine
end

