-- ==== Sys2Proof/Machine/Flags.lean ====
section
/-!
DEFINITION. Every flag computation of the spec: the flags CMP writes (43_control_compare.md R120) and the conditions the
six conditional jumps read (R123 to R128).
-/

namespace Sys2Proof.Machine

/-- The flags after a compare of two register values, as unsigned numbers (43_control_compare.md R120; decision D21). -/
def compareFlags (u v : Byte) : Flags where
  less := decide (u.toNat < v.toNat)
  greater := decide (u.toNat > v.toNat)
  equal := decide (u.toNat = v.toNat)

/-- JEQ: `E = 1` (43_control_compare.md R123). -/
def condJeq (f : Flags) : Bool := f.equal

/-- JNE: `E = 0` (43_control_compare.md R124). -/
def condJne (f : Flags) : Bool := !f.equal

/-- JGE: `E = 1 or G = 1` (43_control_compare.md R125). -/
def condJge (f : Flags) : Bool := f.equal || f.greater

/-- JGT: `G = 1` (43_control_compare.md R126). -/
def condJgt (f : Flags) : Bool := f.greater

/-- JLE: `E = 1 or L = 1` (43_control_compare.md R127). -/
def condJle (f : Flags) : Bool := f.equal || f.less

/-- JLT: `L = 0`. The jump is taken when the less flag is CLEAR: the source's behaviour is preserved, not corrected
(43_control_compare.md R128; decision D4). -/
def condJlt (f : Flags) : Bool := !f.less

end Sys2Proof.Machine
end

