-- ==== Sys2Proof/Machine/Control.lean ====
section
/-!
DEFINITION. Compare, control transfer and halt: CMP, JMP, JEQ, JNE, JGE, JGT, JLE, JLT, CALL, RET, HLT
(43_control_compare.md).
-/

namespace Sys2Proof.Machine

/-- CMP `Ra,Rb` (43_control_compare.md R120). -/
def execCmp (a b : Byte) (s : State) : Result :=
  complete s do
    let i ← regOperand a s
    let j ← regOperand b s
    advance 3 s (s.setFlags (compareFlags (s.reg i) (s.reg j)))

/-- `pc <- x[a]`, the advance suppressed (43_control_compare.md R121; 40_sequencer.md R74). -/
def jumpTo (a : Byte) (s : State) : Except FaultReport State := do
  let i ← regOperand a s
  return s.setPc (s.reg i)

/-- JMP `Ra` (43_control_compare.md R121). -/
def execJmp (a : Byte) (s : State) : Result := complete s (jumpTo a s)

/-- What the six conditional jumps share (43_control_compare.md R122): not taken, the operand byte is neither used nor
checked. -/
def condJump (cond : Flags → Bool) (a : Byte) (s : State) : Result :=
  complete s (if cond s.flags then jumpTo a s else advance 2 s s)

/-- JEQ `Ra` (43_control_compare.md R123). -/
def execJeq (a : Byte) (s : State) : Result := condJump condJeq a s

/-- JNE `Ra` (43_control_compare.md R124). -/
def execJne (a : Byte) (s : State) : Result := condJump condJne a s

/-- JGE `Ra` (43_control_compare.md R125). -/
def execJge (a : Byte) (s : State) : Result := condJump condJge a s

/-- JGT `Ra` (43_control_compare.md R126). -/
def execJgt (a : Byte) (s : State) : Result := condJump condJgt a s

/-- JLE `Ra` (43_control_compare.md R127). -/
def execJle (a : Byte) (s : State) : Result := condJump condJle a s

/-- JLT `Ra` (43_control_compare.md R128). -/
def execJlt (a : Byte) (s : State) : Result := condJump condJlt a s

/-- The return address CALL pushes, the address after its operand byte (43_control_compare.md R130). It is 2 to 255
wherever a CALL can be fetched (`pc <= 253`). -/
def returnAddress (s : State) : Byte := trunc8 (s.pc.toNat + 2)

/-- CALL `Ra` (43_control_compare.md R130): the target register is read after the push, so CALL R7 jumps to the
decremented stack pointer. -/
def execCall (a : Byte) (s : State) : Result :=
  complete s do
    let i ← regOperand a s
    let t ← pushByte (fun _ => returnAddress s) s
    return t.setPc (t.reg i)

/-- RET (43_control_compare.md R131). -/
def execRet (s : State) : Result :=
  complete s do
    let v ← topOfStack s
    return incrementSp (s.setPc v)

/-- HLT (43_control_compare.md R132): the program counter stays at the HLT. -/
def execHlt (s : State) : Result := complete s (.ok (s.setRun .halted))

end Sys2Proof.Machine
end

