-- ==== Sys2Proof/Machine/DataStack.lean ====
section
/-!
DEFINITION. The data movement and stack instructions LDI, PRN, PUSH, POP (42_data_stack.md).
-/

namespace Sys2Proof.Machine

/-- LDI `Ra,imm` (42_data_stack.md R110): the literal is a value, never an index. -/
def execLdi (a imm : Byte) (s : State) : Result :=
  complete s do
    let i ← regOperand a s
    advance 3 s (s.setReg i imm)

/-- PRN `Ra` (42_data_stack.md R111). -/
def execPrn (a : Byte) (s : State) : Result :=
  complete s do
    let i ← regOperand a s
    advance 2 s (s.output (s.reg i))

/-- PUSH `Ra` (42_data_stack.md R112): the source register is read after the decrement, so PUSH R7 pushes the decremented
stack pointer. -/
def execPush (a : Byte) (s : State) : Result :=
  complete s do
    let i ← regOperand a s
    let t ← pushByte (fun u => u.reg i) s
    advance 2 s t

/-- POP `Ra` (42_data_stack.md R113): the increment acts on register 7 as the destination write left it, so POP R7 leaves
the popped byte plus one. -/
def execPop (a : Byte) (s : State) : Result :=
  complete s do
    let i ← regOperand a s
    let v ← topOfStack s
    advance 2 s (incrementSp (s.setReg i v))

end Sys2Proof.Machine
end

