-- ==== Sys2Proof/Machine/Sequencer.lean ====
section
/-!
DEFINITION. The sequencer (40_sequencer.md): the fetch, the unknown opcode, one step under a given configuration, and how
a word of the opcode table is placed where the next fetch reads it.
-/

namespace Sys2Proof.Machine

/-- The fetch (40_sequencer.md R71): the opcode byte, operand a and operand b, all three read and address-checked in
every step whether the instruction needs them or not (decision D20). -/
def fetch (s : State) : Except FaultReport (Byte × Byte × Byte) := do
  let ir ← memRead s.pc.toNat s
  let opa ← memRead (s.pc.toNat + 1) s
  let opb ← memRead (s.pc.toNat + 2) s
  return (ir, opa, opb)

/-- An opcode byte that matches none of the 25 (40_sequencer.md R76). -/
def unknownOpcode (policy : UnknownOpcodePolicy) (ir : Byte) (s : State) : Result :=
  match policy with
  | .strict => complete s (.error (.unknownOpcode s.pc ir))
  | .permissive => complete s (advance (instrSize ir) s s)

/-- Decode and execute the three fetched bytes (40_sequencer.md R72, R73, R76). -/
def decodeAndExecute (c : Config) (ir opa opb : Byte) (s : State) : Result :=
  match decodeWith c.opc ir opa opb with
  | .ok i => exec i s
  | .error _ => unknownOpcode c.unknownOpcodePolicy ir s

/-- One fetch, decode and execute of a running machine (40_sequencer.md R70). -/
def runCycle (c : Config) (s : State) : Result :=
  match fetch s with
  | .ok (ir, opa, opb) => decodeAndExecute c ir opa opb s
  | .error r => complete s (.error r)

/-- The step under a given configuration (40_sequencer.md R70). In `Halted` and `Faulted` a step changes nothing and
fetches nothing (R77). -/
def stepWith (c : Config) (s : State) : Result :=
  match s.run with
  | .running => runCycle c s
  | .halted => .next s
  | .faulted _ => .next s

/-- The bytes of a table word placed at `pc`, `pc + 1` and `pc + 2`, where the next fetch reads them; an address above
255 does not exist and gets nothing. A fetch happens only while `Running` (40_sequencer.md R77), so the run state is set
to it. -/
def placeWord (nbits w : Nat) (s : State) : State :=
  let (ir, opa, opb) := tableBytes nbits w
  let bytes : List Byte := [ir, opa, opb].take (Config.memSize - s.pc.toNat)
  (s.setMem (s.mem.writeBytes s.pc.toNat bytes)).setRun .running

end Sys2Proof.Machine
end

