-- ==== Sys2Proof/Machine/Step.lean ====
section
/-!
DEFINITION. The step of the machine at hand, and the placing of one instruction where it fetches next.
-/

namespace Sys2Proof.Machine

/-- One step: the execution of one instruction (40_sequencer.md R70), under the default `OPC` and the open policy. -/
def step (s : State) : Host.Outcome State Fault Refusal := stepWith machineConfig s

/-- `s` with the instruction whose bits are `w` placed where the next step fetches. -/
def State.withFetchWord (s : State) (nbits w : Nat) : State := placeWord nbits w s

end Sys2Proof.Machine
end

