-- ==== Sys2Proof/Machine/HostInterface.lean ====
section
/-!
DEFINITION. What the host can do to the core: reset, load, step and run (70_reset_and_hazards.md R170 to R173, R179,
R181). Nothing else is a move of the host: it cannot write a register, a flag, the program counter or a cell while a
program runs, and cannot inject an event (R179).
-/

namespace Sys2Proof.Machine

/-- Reset, from whatever state (70_reset_and_hazards.md R170). -/
def resetCore (_ : State) : State := State.reset

/-- `load(bytes)`: cells 0 to `len - 1` overwritten, nothing else; an image longer than the memory is refused with no
change (70_reset_and_hazards.md R171; decision D16). -/
def loadImage (bytes : List Byte) (s : State) : Result :=
  if bytes.length ≤ Config.memSize then .next (s.setMem (s.mem.writeBytes Config.loadBase bytes))
  else .refused (.imageTooLong bytes.length)

/-- The core together with the one thing the host's protocol depends on: whether no step has been taken since reset
(70_reset_and_hazards.md R171, R179). This bit is the host's, not state of the core (10_state.md R10). -/
structure Session where
  /-- The core. -/
  core : State
  /-- No step since reset: the window in which load is allowed. -/
  fresh : Bool
  deriving DecidableEq, Repr

/-- The moves of the host (70_reset_and_hazards.md R179). -/
inductive HostAction where
  | reset
  | load (bytes : List Byte)
  | step
  deriving DecidableEq, Repr

/-- The engine just initialised (70_reset_and_hazards.md R170). -/
def Session.start : Session := ⟨State.reset, true⟩

/-- An outcome of the core as an outcome of the session. -/
def Session.withCore (fresh : Bool) : Result → Host.Outcome Session Fault Refusal
  | .next t => .next ⟨t, fresh⟩
  | .fault r => .fault r
  | .refused r => .refused r

/-- One move of the host. Reset is allowed at any step boundary (70_reset_and_hazards.md R181), load only between reset and
the first step (R171), a step of an ended machine changes nothing (40_sequencer.md R77). -/
def hostAct (c : Config) (h : Session) : HostAction → Host.Outcome Session Fault Refusal
  | .reset => .next ⟨resetCore h.core, true⟩
  | .load bytes => if h.fresh then Session.withCore true (loadImage bytes h.core) else .refused .loadOutsideWindow
  | .step => Session.withCore false (stepWith c h.core)

/-- The run has ended: `Halted` or `Faulted` (70_reset_and_hazards.md R174). -/
def State.ended (s : State) : Bool :=
  match s.run with
  | .running => false
  | .halted => true
  | .faulted _ => true

/-- `run()`, cut after at most `n` steps: the state in which the run ends, or none if it is still `Running` then. The run
of the hardware has no step limit (40_sequencer.md R78; 70_reset_and_hazards.md R172): it ends in `t` when this answers
`t` for some `n`. -/
def runWithin (c : Config) : Nat → State → Option State
  | 0, s => if s.ended then some s else none
  | n + 1, s =>
    if s.ended then some s
    else match stepWith c s with
      | .next t => runWithin c n t
      | .fault _ => none
      | .refused _ => none

end Sys2Proof.Machine
end

