-- ==== Sys2Proof/Safety.lean ====
section
/-!
DEFINITION. The terms claims are stated in: what two states agree on, what it is to raise a fault, the invariants of the
machine, the priority list of the faults (60_exceptions.md R147), and the execution of a sequence of instructions.
-/

namespace Sys2Proof.Machine

/-! ## What two states agree on -/

/-- Every register holds the same value. -/
def SameRegisters (s t : State) : Prop := ∀ k, t.reg k = s.reg k

/-- Every register but `i` holds the same value. -/
def SameRegistersBut (i : RegIndex) (s t : State) : Prop := ∀ k, k ≠ i → t.reg k = s.reg k

/-- Every byte of memory reads the same. -/
def SameMemory (s t : State) : Prop := ∀ addr, t.mem.read addr = s.mem.read addr

/-- Every byte of memory but the one at address `a` reads the same. -/
def SameMemoryBut (a : Nat) (s t : State) : Prop := ∀ addr, addr ≠ a → t.mem.read addr = s.mem.read addr

/-- The flags, the run state and the output stream are the same. -/
def SameFlagsRunOutput (s t : State) : Prop := t.flags = s.flags ∧ t.run = s.run ∧ t.out = s.out

/-! ## Faults -/

/-- Executing `i` in `s` raises the fault `r`: the run state records it and nothing else changes (60_exceptions.md R148). -/
def Raises (i : Instr) (s : State) (r : FaultReport) : Prop := exec i s = .next { s with run := .faulted r }

/-- The program counter a report records; only the unreachable kind records none (60_exceptions.md R145). -/
def FaultReport.recordedPc : FaultReport → Option Byte
  | .unknownOpcode pc _ => some pc
  | .moduloByZero pc => some pc
  | .outOfRange _ pc => some pc
  | .unsupportedAluOp => none

/-- What the decoder makes of the three bytes at the program counter. -/
def decodedAt (m : OpcodeMap) (s : State) : Except DecodeError Instr :=
  decodeWith m (s.mem.read s.pc.toNat) (s.mem.read (s.pc.toNat + 1)) (s.mem.read (s.pc.toNat + 2))

/-- The condition of a conditional jump under the flags, none for any other instruction (43_control_compare.md R123 to
R128). -/
def jumpCondition (f : Flags) : Instr → Option Bool
  | .jeq _ => some f.equal
  | .jne _ => some (!f.equal)
  | .jge _ => some (f.equal || f.greater)
  | .jgt _ => some f.greater
  | .jle _ => some (f.equal || f.less)
  | .jlt _ => some (!f.less)
  | .hlt | .ret | .push _ | .pop _ | .prn _ | .call _ | .jmp _ | .not _ => none
  | .ldi _ _ | .add _ _ | .sub _ _ | .mul _ _ | .mod _ _ | .cmp _ _ | .and _ _ | .or _ _ | .xor _ _ | .shl _ _
  | .shr _ _ => none

/-- The register operand bytes the instruction accesses under the flags, a before b: all it has, but for a conditional
jump that is not taken (30_encoding.md R54; 43_control_compare.md R122). -/
def accessedOperands (f : Flags) (i : Instr) : List Byte :=
  if jumpCondition f i = some false then [] else i.registerOperands

/-- Whether the instruction, under the flags, ends in `advance(size)` rather than in a redirect or a halt
(40_sequencer.md R74). -/
def endsInAdvance (f : Flags) : Instr → Bool
  | .hlt | .ret | .call _ | .jmp _ => false
  | .jeq _ => !f.equal
  | .jne _ => f.equal
  | .jge _ => !(f.equal || f.greater)
  | .jgt _ => !f.greater
  | .jle _ => !(f.equal || f.less)
  | .jlt _ => f.less
  | .push _ | .pop _ | .prn _ | .not _ => true
  | .ldi _ _ | .add _ _ | .sub _ _ | .mul _ _ | .mod _ _ | .cmp _ _ | .and _ _ | .or _ _ | .xor _ _ | .shl _ _
  | .shr _ _ => true

/-- The `n` of the `advance(n)` the instruction ends in, if it ends in one (40_sequencer.md R74). -/
def advanceSize (f : Flags) (i : Instr) : Option Nat :=
  if endsInAdvance f i then some (i.opcode.operandCount + 1) else none

/-- The instruction is a MOD whose divisor register holds 0 (41_alu.md R100). -/
def dividesByZero (s : State) (i : Instr) : Bool :=
  i.opcode == .mod && i.registerOperands[1]?.any fun b => if h : namesRegister b then s.reg ⟨b.toNat, h⟩ == 0#8 else false

/-- The `n` of the `advance(n)` a step whose fetch succeeded ends in: that of the instruction, or the size of an unknown
opcode under the permissive policy (40_sequencer.md R74, R76). -/
def stepAdvanceSize (c : Config) (s : State) : Option Nat :=
  match decodedAt c.opc s with
  | .ok i => advanceSize s.flags i
  | .error _ => some (instrSize (s.mem.read s.pc.toNat))

/-- The register operand bytes a step accesses; an unknown opcode accesses none. -/
def stepAccessedOperands (c : Config) (s : State) : List Byte :=
  match decodedAt c.opc s with
  | .ok i => accessedOperands s.flags i
  | .error _ => []

/-- The rows of the priority table of 60_exceptions.md R147, in its order: whether the condition of the row holds, and the
fault it reports. -/
def priorityTable (c : Config) (s : State) : List (Bool × FaultReport) :=
  let ir := s.mem.read s.pc.toNat
  let a := (stepAccessedOperands c s)[0]?
  let b := (stepAccessedOperands c s)[1]?
  let n := stepAdvanceSize c s
  [ (s.pc == 255#8, .outOfRange (.memory 256) s.pc),
    (s.pc == 254#8, .outOfRange (.memory 256) s.pc),
    (Opcode.all.all (fun o => c.opc o != ir) && c.unknownOpcodePolicy == .strict, .unknownOpcode s.pc ir),
    (a.any (fun v => decide (7 < v.toNat)), .outOfRange (.register (a.getD 0)) s.pc),
    (b.any (fun v => decide (7 < v.toNat)), .outOfRange (.register (b.getD 0)) s.pc),
    (match decodedAt c.opc s with | .ok i => dividesByZero s i | .error _ => false, .moduloByZero s.pc),
    (n.any (fun k => decide (255 < s.pc.toNat + k)), .outOfRange (.memory (s.pc.toNat + n.getD 0)) s.pc) ]

/-- The fault a step of the running machine reports, if it faults: the first row whose condition holds (60_exceptions.md
R147). -/
def firstFault (c : Config) (s : State) : Option FaultReport :=
  ((priorityTable c s).find? fun row => row.1).map fun row => row.2

/-! ## The shapes of the instruction rules -/

/-- The register checks of a three-byte instruction with two register operands: operand a is reported
before operand b, and both before the advance past 255 (30_encoding.md R54; 40_sequencer.md R75). -/
def TwoRegisterFaults (mk : Byte → Byte → Instr) : Prop :=
  ∀ (a b : Byte) (s : State),
    (¬ namesRegister a → Raises (mk a b) s (.outOfRange (.register a) s.pc)) ∧
    (namesRegister a → ¬ namesRegister b → Raises (mk a b) s (.outOfRange (.register b) s.pc))

/-- The rule of a two-register ALU instruction with the opcode byte `op` (a default of `OPC`, log entry 2): `x[a]` becomes
`result x[a] x[b]` modulo 256, and only `x[a]` and the program counter change; the faults are those of the operands and of
the advance (41_alu.md R90). The modulus and the unmasked operand byte are the spec's decisions D1 and D7. -/
def TwoRegisterAluRule (op : Byte) (mk : Byte → Byte → Instr) (result : Nat → Nat → Int) : Prop :=
  (∀ a b, encode (mk a b) = [op, a, b]) ∧
  TwoRegisterFaults mk ∧
  ∀ (a b : Byte) (ha : namesRegister a) (hb : namesRegister b) (s : State),
    (255 < s.pc.toNat + 3 → Raises (mk a b) s (.outOfRange (.memory (s.pc.toNat + 3)) s.pc)) ∧
    (s.pc.toNat + 3 ≤ 255 → ∃ t, exec (mk a b) s = .next t ∧
      ((t.reg ⟨a.toNat, ha⟩).toNat : Int) = result (s.reg ⟨a.toNat, ha⟩).toNat (s.reg ⟨b.toNat, hb⟩).toNat % 256 ∧
      SameRegistersBut ⟨a.toNat, ha⟩ s t ∧ t.pc.toNat = s.pc.toNat + 3 ∧ SameMemory s t ∧ SameFlagsRunOutput s t)

/-- The rule of a conditional jump with the opcode byte `op` (a default of `OPC`, log entry 2) and the condition `cond` on
`L`, `G`, `E`: taken, the operand is checked and the register becomes the program counter; not taken, the operand byte is
not looked at and the program counter advances by 2, which cannot overflow where the jump can be fetched
(43_control_compare.md R122). -/
def ConditionalJumpRule (op : Byte) (mk : Byte → Instr) (cond : Bool → Bool → Bool → Bool) : Prop :=
  (∀ a, encode (mk a) = [op, a]) ∧
  ∀ (a : Byte) (s : State),
    (cond s.flags.less s.flags.greater s.flags.equal = true →
      (¬ namesRegister a → Raises (mk a) s (.outOfRange (.register a) s.pc)) ∧
      ∀ ha : namesRegister a, exec (mk a) s = .next { s with pc := s.reg ⟨a.toNat, ha⟩ }) ∧
    (cond s.flags.less s.flags.greater s.flags.equal = false → s.pc.toNat ≤ 253 →
      exec (mk a) s = .next { s with pc := s.pc + 2 })

/-! ## Invariants -/

/-- Exactly one of the flags is set: the state of the flags after any CMP (10_state.md R17). -/
def Flags.ExactlyOne (f : Flags) : Prop :=
  f = ⟨true, false, false⟩ ∨ f = ⟨false, true, false⟩ ∨ f = ⟨false, false, true⟩

/-- The flags are mutually exclusive: none is set, or exactly one is (10_state.md R17). -/
def Flags.Exclusive (f : Flags) : Prop := f = ⟨false, false, false⟩ ∨ f.ExactlyOne

/-- The memory of the state has its canonical form. -/
def State.MemoryCanonical (s : State) : Prop := s.mem.wf = true

/-! ## Safe runs -/

/-- The machine ended cleanly: HLT was executed (60_exceptions.md R158). -/
def State.EndedCleanly (s : State) : Prop := s.run = .halted

/-- The machine has not faulted. -/
def State.Safe (s : State) : Prop := ∀ r, s.run ≠ .faulted r

/-! ## Sequences of instructions -/

/-- The operand byte that names a register. -/
def regByte (i : RegIndex) : Byte := BitVec.ofNat 8 i.val

/-- The instructions executed one after the other, each at the address `p`: wherever they stand, what lies between them
changing nothing but the program counter. -/
def execAllAt (p : Byte) : List Instr → State → Option State
  | [], s => some s
  | i :: is, s =>
    match exec i (s.setPc p) with
    | .next t => execAllAt p is t
    | .fault _ => none
    | .refused _ => none

end Sys2Proof.Machine
end

