-- ==== Sys2Proof/Certificates/Slice0/Obligations.lean ====
section
/-!
DEFINITION. The statements for the provers, each formalising rules of the spec. A register operand byte of 0 to 7 names a
register (`namesRegister`); `Raises` is the fault entry of 60_exceptions.md R148, which changes the run state alone; a
statement over a `Config` holds for every opcode map and for both policies of the open parameter. The opcode byte an
instruction's rule names is the default of the parameter `OPC`, general knowledge by the spec's own mark (log entry 2).
-/

open Sys2Proof Sys2Proof.Machine

/-! ## Encoding -/

/-- One word of each format, written out from 30_encoding.md section 3, decodes to its instruction; a byte between two
opcodes does not decode. The opcode values are the spec's default of `OPC`, general knowledge by its own mark (log
entry 2). -/
def Obligations.OpcodeWordsDecode : Prop :=
  decode 0b00000001 0xFF 0xFF = .ok .hlt ∧
  decode 0b00010001 0 0 = .ok .ret ∧
  decode 0b01000111 3 9 = .ok (.prn 3) ∧
  decode 0b01011010 7 0 = .ok (.jge 7) ∧
  decode 0b01101001 4 0xFF = .ok (.not 4) ∧
  decode 0b10000010 0 8 = .ok (.ldi 0 8) ∧
  decode 0b10100000 1 2 = .ok (.add 1 2) ∧
  decode 0b10101101 2 1 = .ok (.shr 2 1) ∧
  decode 0b10100011 0 1 = .error (.unknownOpcode 0xA3)

/-- Under every legal opcode map, the bytes of an instruction, with any bytes after them, decode to that instruction:
every operand at every value. -/
def Obligations.DecodeInvertsEncode : Prop :=
  ∀ m : OpcodeMap, m.Legal → ∀ (i : Instr) (y z : Byte), decodeBytesWith m (encodeWith m i ++ [y, z]) = .ok i

/-- 30_encoding.md R64: the default opcode map meets the constraints the document imposes. -/
def Obligations.DefaultOpcodesAreLegal : Prop :=
  (∀ o o', opc o = opc o' → o = o') ∧
  (∀ o ∈ [Opcode.hlt, .ret], sizeField (opc o) = 0) ∧
  (∀ o ∈ [Opcode.not, .prn, .push, .pop, .jmp, .jeq, .jne, .jge, .jgt, .jle, .jlt, .call], sizeField (opc o) = 1) ∧
  (∀ o ∈ [Opcode.add, .sub, .mul, .and, .or, .xor, .shl, .shr, .mod, .cmp, .ldi], sizeField (opc o) = 2)

/-- 30_encoding.md R63: decoding matches the whole opcode byte against the 25 values and nothing else. A decoded
instruction's own bytes are those it was decoded from, the operand bytes take no part in selecting it, and a byte that
matches none of the 25 is an unknown opcode. -/
def Obligations.DecodeMatchesWholeOpcodeByte : Prop :=
  ∀ (m : OpcodeMap) (ir a b : Byte),
    (decodeWith m ir a b = .error (.unknownOpcode ir) ↔ ∀ o, m o ≠ ir) ∧
    ((∃ o, m o = ir) → ∃ i, decodeWith m ir a b = .ok i) ∧
    ∀ i, decodeWith m ir a b = .ok i →
      encodeWith m i <+: [ir, a, b] ∧
      ∀ a' b', ∃ i', decodeWith m ir a' b' = .ok i' ∧ i'.opcode = i.opcode

/-! ## The sequencer -/

/-- A running machine whose bytes at the program counter decode to an instruction executes it, and nothing is added around
its meaning. At 254 and 255 nothing can be fetched. -/
def Obligations.StepRunsDecodedInstruction : Prop :=
  (∀ (c : Config) (s : State) (i : Instr), s.run = .running → s.pc.toNat ≤ 253 → decodedAt c.opc s = .ok i →
    stepWith c s = exec i s) ∧
  (∀ (s : State) (i : Instr), s.run = .running → s.pc.toNat ≤ 253 → decodedAt opc s = .ok i → step s = exec i s)

/-- Halted and Faulted are absorbing: a step changes nothing (spec decision D23). -/
def Obligations.EndedMachineNeverChanges : Prop :=
  ∀ (c : Config) (s : State), s.run ≠ .running → stepWith c s = .next s ∧ step s = .next s

/-- Both operand bytes are read in every step, so at 254 and 255 every step faults in the fetch and changes the run state
alone (spec decision D20). -/
def Obligations.FetchFaultsAtTopOfMemory : Prop :=
  ∀ (c : Config) (s : State), s.run = .running → 254 ≤ s.pc.toNat →
    stepWith c s = .next { s with run := .faulted (.outOfRange (.memory 256) s.pc) }

/-- Under the strict policy an unknown opcode raises its fault and changes the run state alone (spec decision D3, the open
parameter; log entry 1). -/
def Obligations.StrictUnknownOpcodeFaults : Prop :=
  ∀ (c : Config) (s : State), c.unknownOpcodePolicy = .strict → s.run = .running → s.pc.toNat ≤ 253 →
    (∀ o, c.opc o ≠ s.mem.read s.pc.toNat) →
    stepWith c s = .next { s with run := .faulted (.unknownOpcode s.pc (s.mem.read s.pc.toNat)) }

/-- Under the permissive policy an unknown opcode only advances the program counter by its size field plus one, 1 to 4, or
faults where that passes 255 (spec decisions D3, D6 and D22; log entry 1). -/
def Obligations.PermissiveUnknownOpcodeOnlyAdvances : Prop :=
  ∀ (c : Config) (s : State), c.unknownOpcodePolicy = .permissive → s.run = .running → s.pc.toNat ≤ 253 →
    (∀ o, c.opc o ≠ s.mem.read s.pc.toNat) →
    let n := (s.mem.read s.pc.toNat).toNat / 64 + 1
    (s.pc.toNat + n ≤ 255 → ∃ t, stepWith c s = .next t ∧ t = { s with pc := t.pc } ∧ t.pc.toNat = s.pc.toNat + n) ∧
    (255 < s.pc.toNat + n →
      stepWith c s = .next { s with run := .faulted (.outOfRange (.memory (s.pc.toNat + n)) s.pc) })

/-- A step of the running machine reports the first fault of the priority table whose condition holds, and changes the run
state alone; where no condition holds it completes, running or halted (spec decision D9). -/
def Obligations.FirstFaultInPriorityOrder : Prop :=
  ∀ (c : Config) (s : State), s.run = .running →
    (∀ r, firstFault c s = some r → stepWith c s = .next { s with run := .faulted r }) ∧
    (firstFault c s = none → ∃ t, stepWith c s = .next t ∧ (t.run = .running ∨ t.run = .halted))

/-- A step that faults changes the run state alone, and its report records the program counter, which stays at the faulting
instruction (spec decision D8). -/
def Obligations.FaultingStepChangesOnlyRunState : Prop :=
  ∀ (c : Config) (s t : State) (r : FaultReport), s.run = .running → stepWith c s = .next t → t.run = .faulted r →
    t = { s with run := .faulted r } ∧ r.recordedPc = some s.pc

/-- A step of the running machine reaches Halted exactly when it executes HLT, and Faulted exactly when a fault's condition
holds, with the report of the first such condition; the two are told apart. Which report it is rests on the spec's order
of the checks (spec decision D9; log entry 10), and that no HLT executes above 253 on the reads of both operand bytes
(spec decision D20). -/
def Obligations.HaltedOnlyByHltFaultedOnlyByFault : Prop :=
  ∀ (c : Config) (s t : State), s.run = .running → stepWith c s = .next t →
    (t.run = .halted ↔ s.pc.toNat ≤ 253 ∧ decodedAt c.opc s = .ok .hlt) ∧
    (∀ r, t.run = .faulted r ↔ firstFault c s = some r) ∧
    ∀ r, ¬ (t.run = .halted ∧ t.run = .faulted r)

/-- 60_exceptions.md R144: the ALU select is a closed set of ten operations, and no step raises `UnsupportedAluOp`. -/
def Obligations.UnsupportedAluOpNeverRaised : Prop :=
  (∀ op : AluOp, op ∈ [AluOp.add, .sub, .mul, .and, .or, .xor, .not, .shl, .shr, .mod]) ∧
  ∀ (c : Config) (s t : State), s.run ≠ .faulted .unsupportedAluOp → stepWith c s = .next t →
    t.run ≠ .faulted .unsupportedAluOp

/-- Every state has a next state: no step stops the host, and nothing is stuck. -/
def Obligations.EveryStateHasNextState : Prop :=
  (∀ (i : Instr) (s : State), ∃ t, exec i s = .next t) ∧
  (∀ (c : Config) (s : State), ∃ t, stepWith c s = .next t) ∧
  ∀ s : State, ∃ t, step s = .next t

/-! ## Invariants -/

/-- The flags stay mutually exclusive: none set, or exactly one (the spec's derived rule on the flags). -/
def Obligations.FlagsStayExclusive : Prop :=
  ∀ (c : Config) (s t : State), s.flags.Exclusive → stepWith c s = .next t → t.flags.Exclusive

/-- Once exactly one flag is set, exactly one flag is set for ever: all three clear occurs only before the first CMP since
reset (the spec's derived rule on the flags). -/
def Obligations.OneFlagStaysSet : Prop :=
  ∀ (c : Config) (s t : State), s.flags.ExactlyOne → stepWith c s = .next t → t.flags.ExactlyOne

/-- Every step keeps the canonical form of memory: addresses strictly rising and below 256, no listed zero (the model's
own form of the 256 cells, log entry 4). -/
def Obligations.MemoryStaysCanonical : Prop :=
  ∀ (c : Config) (s t : State), s.MemoryCanonical → stepWith c s = .next t → t.MemoryCanonical

/-- The state after reset meets the two invariants every step keeps, the canonical form of memory (the model's own form of
the 256 cells, log entry 4) and the exclusive flags; and the machine has not faulted then, which is no invariant, since a
step may fault. -/
def Obligations.ResetMeetsTheInvariants : Prop :=
  State.reset.MemoryCanonical ∧ State.reset.flags.Exclusive ∧ State.reset.Safe

/-- Every item of state after reset. That the machine is running with an empty output stream is the spec's own
representation of the initial state (spec decision D23). -/
def Obligations.ResetState : Prop :=
  (∀ k : RegIndex, k ≠ 7 → State.reset.reg k = 0) ∧ State.reset.reg 7 = 0xF4 ∧ State.reset.pc = 0 ∧
  State.reset.flags = ⟨false, false, false⟩ ∧ (∀ addr, State.reset.mem.read addr = 0) ∧
  State.reset.run = .running ∧ State.reset.out = []

/-! ## Rules of the whole machine -/

/-- The flags change only in a step that executes CMP with legal operands (spec decision D19). -/
def Obligations.OnlyCompareWritesFlags : Prop :=
  ∀ (c : Config) (s t : State), stepWith c s = .next t → t.flags ≠ s.flags →
    ∃ a b, namesRegister a ∧ namesRegister b ∧ s.pc.toNat + 3 ≤ 255 ∧ decodedAt c.opc s = .ok (.cmp a b)

/-- No instruction but the six conditional jumps reads a flag: changing the flags before it changes nothing after it but
the flags. -/
def Obligations.OnlyConditionalJumpsReadFlags : Prop :=
  ∀ (i : Instr) (s t : State) (f : Flags), jumpCondition f i = none → exec i s = .next t →
    ∃ u, exec i { s with flags := f } = .next u ∧ SameRegisters t u ∧ u.pc = t.pc ∧ u.mem = t.mem ∧ u.run = t.run ∧
      u.out = t.out

/-- The output stream is append-only, and only a completing PRN appends: one value, that of its register. -/
def Obligations.OutputGrowsOnlyByPrint : Prop :=
  ∀ (c : Config) (s t : State), stepWith c s = .next t → t.out ≠ s.out →
    ∃ (a : Byte) (h : namesRegister a), decodedAt c.opc s = .ok (.prn a) ∧ t.out = s.out ++ [s.reg ⟨a.toNat, h⟩]

/-- A step changes a byte of memory only by executing PUSH or CALL, and only the byte the decremented stack pointer
addresses. -/
def Obligations.OnlyPushAndCallWriteMemory : Prop :=
  ∀ (c : Config) (s t : State) (addr : Nat), stepWith c s = .next t → t.mem.read addr ≠ s.mem.read addr →
    addr = (s.sp.toNat + 255) % 256 ∧
    ∃ a, namesRegister a ∧ (decodedAt c.opc s = .ok (.push a) ∨ decodedAt c.opc s = .ok (.call a))

/-- A stored byte is seen by the very next fetch: when a PUSH writes a cell of the next instruction, the next step decodes
the byte just pushed. The canonical form of memory is a premise (log entry 4); every step keeps it. -/
def Obligations.PushedByteIsFetchedNext : Prop :=
  ∀ (c : Config) (s : State) (a : Byte) (h : namesRegister a), s.MemoryCanonical → s.run = .running →
    s.pc.toNat ≤ 251 → decodedAt c.opc s = .ok (.push a) →
    ∃ t, stepWith c s = .next t ∧ t.pc = s.pc + 2 ∧
      (∀ k ≤ 2, (s.sp.toNat + 255) % 256 = t.pc.toNat + k →
        ∃ ir opa opb, fetch t = .ok (ir, opa, opb) ∧ [ir, opa, opb][k]? = some (t.reg ⟨a.toNat, h⟩))

/-! ## Running and loading -/

/-- A run that has ended never moves again, however many more steps the host takes. -/
def Obligations.EndedRunStaysEnded : Prop :=
  ∀ (k m : Nat) (s t : State), core.run k s = .next t → t.run ≠ .running → core.run (k + m) s = .next t

/-- An image of at most 256 bytes is written from address 0 upward and nothing else changes; a longer one is refused (spec
decision D16). The canonical form of memory is a premise (log entry 4). -/
def Obligations.LoadWritesImageFromZero : Prop :=
  ∀ (bytes : List Byte) (s : State), s.MemoryCanonical →
    (bytes.length ≤ 256 → ∃ t, loadImage bytes s = .next t ∧ t = { s with mem := t.mem } ∧ t.MemoryCanonical ∧
      (∀ (i : Nat) (h : i < bytes.length), t.mem.read i = bytes[i]) ∧
      ∀ i, bytes.length ≤ i → t.mem.read i = s.mem.read i) ∧
    (256 < bytes.length → loadImage bytes s = .refused (.imageTooLong bytes.length))

/-- The host may load only between reset and the first step, and may reset at any time (spec decisions D16 and D18). -/
def Obligations.LoadWindowIsBeforeFirstStep : Prop :=
  ∀ (c : Config) (h : Session) (bytes : List Byte),
    (hostAct c h .reset = .next ⟨State.reset, true⟩) ∧
    (h.fresh = false → hostAct c h (.load bytes) = .refused .loadOutsideWindow) ∧
    (h.fresh = true → bytes.length ≤ 256 → ∃ t, hostAct c h (.load bytes) = .next ⟨t, true⟩ ∧
      loadImage bytes h.core = .next t) ∧
    (∃ t, hostAct c h .step = .next ⟨t, false⟩ ∧ stepWith c h.core = .next t)

/-! ## ALU instructions -/

/-- 41_alu.md R91. -/
def Obligations.AddRule : Prop := TwoRegisterAluRule 0xA0 Instr.add fun u v => (u : Int) + v

/-- 41_alu.md R92. -/
def Obligations.SubRule : Prop := TwoRegisterAluRule 0xA1 Instr.sub fun u v => (u : Int) - v

/-- 41_alu.md R93. -/
def Obligations.MulRule : Prop := TwoRegisterAluRule 0xA2 Instr.mul fun u v => (u : Int) * v

/-- 41_alu.md R94. -/
def Obligations.AndRule : Prop := TwoRegisterAluRule 0xA8 Instr.and fun u v => ((u &&& v : Nat) : Int)

/-- 41_alu.md R95. -/
def Obligations.OrRule : Prop := TwoRegisterAluRule 0xAA Instr.or fun u v => ((u ||| v : Nat) : Int)

/-- 41_alu.md R96. -/
def Obligations.XorRule : Prop := TwoRegisterAluRule 0xAB Instr.xor fun u v => ((u ^^^ v : Nat) : Int)

/-- SHL with the whole register as count, so 0 from a count of 8 on; the bound `min n 8` is the spec's own reading of the
unbounded shift (spec decision D2). -/
def Obligations.ShlRule : Prop := TwoRegisterAluRule 0xAC Instr.shl fun u n => ((u * 2 ^ min n 8 : Nat) : Int)

/-- SHR with the whole register as count, zeros entering from the left, so 0 from a count of 8 on (spec decision D2). -/
def Obligations.ShrRule : Prop := TwoRegisterAluRule 0xAD Instr.shr fun u n => ((u / 2 ^ min n 8 : Nat) : Int)

/-- 41_alu.md R100: the register checks, then the divisor, then the advance; the result is the remainder. -/
def Obligations.ModRule : Prop :=
  (∀ a b, encode (.mod a b) = [0xA4, a, b]) ∧
  TwoRegisterFaults Instr.mod ∧
  ∀ (a b : Byte) (ha : namesRegister a) (hb : namesRegister b) (s : State),
    (s.reg ⟨b.toNat, hb⟩ = 0 → Raises (.mod a b) s (.moduloByZero s.pc)) ∧
    (s.reg ⟨b.toNat, hb⟩ ≠ 0 → 255 < s.pc.toNat + 3 →
      Raises (.mod a b) s (.outOfRange (.memory (s.pc.toNat + 3)) s.pc)) ∧
    (s.reg ⟨b.toNat, hb⟩ ≠ 0 → s.pc.toNat + 3 ≤ 255 → ∃ t, exec (.mod a b) s = .next t ∧
      (t.reg ⟨a.toNat, ha⟩).toNat = (s.reg ⟨a.toNat, ha⟩).toNat % (s.reg ⟨b.toNat, hb⟩).toNat ∧
      (t.reg ⟨a.toNat, ha⟩).toNat < (s.reg ⟨b.toNat, hb⟩).toNat ∧
      SameRegistersBut ⟨a.toNat, ha⟩ s t ∧ t.pc.toNat = s.pc.toNat + 3 ∧ SameMemory s t ∧ SameFlagsRunOutput s t)

/-- 41_alu.md R97: the bitwise complement, 255 minus the value; operand byte b is never looked at. -/
def Obligations.NotRule : Prop :=
  (∀ a, encode (.not a) = [0x69, a]) ∧
  ∀ (a : Byte) (s : State),
    (¬ namesRegister a → Raises (.not a) s (.outOfRange (.register a) s.pc)) ∧
    ∀ ha : namesRegister a, s.pc.toNat ≤ 253 → ∃ t, exec (.not a) s = .next t ∧
      (t.reg ⟨a.toNat, ha⟩).toNat = 255 - (s.reg ⟨a.toNat, ha⟩).toNat ∧
      SameRegistersBut ⟨a.toNat, ha⟩ s t ∧ t.pc.toNat = s.pc.toNat + 2 ∧ SameMemory s t ∧ SameFlagsRunOutput s t

/-! ## Data movement and stack -/

/-- 42_data_stack.md R110: the literal, any byte, becomes the register; register 7 is an ordinary destination. -/
def Obligations.LdiRule : Prop :=
  (∀ a imm, encode (.ldi a imm) = [0x82, a, imm]) ∧
  ∀ (a imm : Byte) (s : State),
    (¬ namesRegister a → Raises (.ldi a imm) s (.outOfRange (.register a) s.pc)) ∧
    ∀ ha : namesRegister a,
      (255 < s.pc.toNat + 3 → Raises (.ldi a imm) s (.outOfRange (.memory (s.pc.toNat + 3)) s.pc)) ∧
      (s.pc.toNat + 3 ≤ 255 → ∃ t, exec (.ldi a imm) s = .next t ∧ t.reg ⟨a.toNat, ha⟩ = imm ∧
        SameRegistersBut ⟨a.toNat, ha⟩ s t ∧ t.pc.toNat = s.pc.toNat + 3 ∧ SameMemory s t ∧ SameFlagsRunOutput s t)

/-- PRN appends the register's value to the output stream; only the stream and the program counter change (spec decision
D17 on what the core emits). -/
def Obligations.PrnRule : Prop :=
  (∀ a, encode (.prn a) = [0x47, a]) ∧
  ∀ (a : Byte) (s : State),
    (¬ namesRegister a → Raises (.prn a) s (.outOfRange (.register a) s.pc)) ∧
    ∀ ha : namesRegister a, s.pc.toNat ≤ 253 →
      exec (.prn a) s = .next { s with out := s.out ++ [s.reg ⟨a.toNat, ha⟩], pc := s.pc + 2 }

/-- PUSH decrements the stack pointer modulo 256 and writes the source register, as it then is, at the new stack pointer;
a faulting PUSH moves nothing (spec decisions D8 and D12; the derived reading of PUSH R7). The canonical form of memory
is a premise for the byte written (log entry 4). -/
def Obligations.PushRule : Prop :=
  (∀ a, encode (.push a) = [0x45, a]) ∧
  ∀ (a : Byte) (s : State),
    (¬ namesRegister a → Raises (.push a) s (.outOfRange (.register a) s.pc)) ∧
    ∀ ha : namesRegister a, s.pc.toNat ≤ 253 → ∃ t, exec (.push a) s = .next t ∧
      (t.reg 7).toNat = (s.sp.toNat + 255) % 256 ∧ SameRegistersBut 7 s t ∧
      (s.MemoryCanonical → t.mem.read ((s.sp.toNat + 255) % 256) = t.reg ⟨a.toNat, ha⟩) ∧
      SameMemoryBut ((s.sp.toNat + 255) % 256) s t ∧ t.pc.toNat = s.pc.toNat + 2 ∧ SameFlagsRunOutput s t

/-- POP reads the byte at the stack pointer into the register and then increments register 7 modulo 256, as it then is: POP
R7 leaves the popped byte plus one (spec decision D12; the derived reading of POP R7). -/
def Obligations.PopRule : Prop :=
  (∀ a, encode (.pop a) = [0x46, a]) ∧
  ∀ (a : Byte) (s : State),
    (¬ namesRegister a → Raises (.pop a) s (.outOfRange (.register a) s.pc)) ∧
    ∀ ha : namesRegister a, s.pc.toNat ≤ 253 → ∃ t, exec (.pop a) s = .next t ∧
      (a.toNat ≠ 7 → t.reg ⟨a.toNat, ha⟩ = s.mem.read s.sp.toNat ∧ (t.reg 7).toNat = (s.sp.toNat + 1) % 256) ∧
      (a.toNat = 7 → (t.reg 7).toNat = ((s.mem.read s.sp.toNat).toNat + 1) % 256) ∧
      (∀ k : RegIndex, k.val ≠ a.toNat → k ≠ 7 → t.reg k = s.reg k) ∧
      t.pc.toNat = s.pc.toNat + 2 ∧ SameMemory s t ∧ SameFlagsRunOutput s t

/-! ## Compare and control transfer -/

/-- CMP writes all three flags from the unsigned order of the two registers, and nothing else but the program counter
(spec decision D21 on the signedness). -/
def Obligations.CmpRule : Prop :=
  (∀ a b, encode (.cmp a b) = [0xA7, a, b]) ∧
  TwoRegisterFaults Instr.cmp ∧
  ∀ (a b : Byte) (ha : namesRegister a) (hb : namesRegister b) (s : State),
    (255 < s.pc.toNat + 3 → Raises (.cmp a b) s (.outOfRange (.memory (s.pc.toNat + 3)) s.pc)) ∧
    (s.pc.toNat + 3 ≤ 255 → ∃ t, exec (.cmp a b) s = .next t ∧
      (t.flags.less = true ↔ (s.reg ⟨a.toNat, ha⟩).toNat < (s.reg ⟨b.toNat, hb⟩).toNat) ∧
      (t.flags.greater = true ↔ (s.reg ⟨a.toNat, ha⟩).toNat > (s.reg ⟨b.toNat, hb⟩).toNat) ∧
      (t.flags.equal = true ↔ (s.reg ⟨a.toNat, ha⟩).toNat = (s.reg ⟨b.toNat, hb⟩).toNat) ∧
      t.flags.ExactlyOne ∧ t = { s with flags := t.flags, pc := t.pc } ∧ t.pc.toNat = s.pc.toNat + 3)

/-- 43_control_compare.md R121: the register becomes the program counter, whatever its value, and nothing else changes. -/
def Obligations.JmpRule : Prop :=
  (∀ a, encode (.jmp a) = [0x54, a]) ∧
  ∀ (a : Byte) (s : State),
    (¬ namesRegister a → Raises (.jmp a) s (.outOfRange (.register a) s.pc)) ∧
    ∀ ha : namesRegister a, exec (.jmp a) s = .next { s with pc := s.reg ⟨a.toNat, ha⟩ }

/-- JEQ jumps exactly when E is 1. The unchecked operand of a jump not taken is spec decision D7. -/
def Obligations.JeqRule : Prop := ConditionalJumpRule 0x55 Instr.jeq fun _ _ e => e

/-- JNE jumps exactly when E is 0. The unchecked operand of a jump not taken is spec decision D7. -/
def Obligations.JneRule : Prop := ConditionalJumpRule 0x56 Instr.jne fun _ _ e => !e

/-- JGE jumps exactly when E is 1 or G is 1. The unchecked operand of a jump not taken is spec decision D7. -/
def Obligations.JgeRule : Prop := ConditionalJumpRule 0x5A Instr.jge fun _ g e => e || g

/-- JGT jumps exactly when G is 1. The unchecked operand of a jump not taken is spec decision D7. -/
def Obligations.JgtRule : Prop := ConditionalJumpRule 0x57 Instr.jgt fun _ g _ => g

/-- JLE jumps exactly when E is 1 or L is 1. The unchecked operand of a jump not taken is spec decision D7. -/
def Obligations.JleRule : Prop := ConditionalJumpRule 0x59 Instr.jle fun l _ e => e || l

/-- JLT jumps exactly when the less flag is CLEAR: the inverted test is preserved (spec decision D4). The unchecked operand
of a jump not taken is spec decision D7. -/
def Obligations.JltRule : Prop := ConditionalJumpRule 0x58 Instr.jlt fun l _ _ => !l

/-- CALL pushes the address after its operand byte and then jumps to its register, as it then is; a faulting CALL pushes
nothing (spec decisions D8 and D12; the derived reading of CALL R7). The canonical form of memory is a premise for the
byte written (log entry 4). -/
def Obligations.CallRule : Prop :=
  (∀ a, encode (.call a) = [0x50, a]) ∧
  ∀ (a : Byte) (s : State),
    (¬ namesRegister a → Raises (.call a) s (.outOfRange (.register a) s.pc)) ∧
    ∀ ha : namesRegister a, s.pc.toNat ≤ 253 → ∃ t, exec (.call a) s = .next t ∧
      (t.reg 7).toNat = (s.sp.toNat + 255) % 256 ∧ SameRegistersBut 7 s t ∧
      (s.MemoryCanonical → (t.mem.read ((s.sp.toNat + 255) % 256)).toNat = s.pc.toNat + 2) ∧
      SameMemoryBut ((s.sp.toNat + 255) % 256) s t ∧ t.pc = t.reg ⟨a.toNat, ha⟩ ∧ SameFlagsRunOutput s t

/-- RET pops the byte at the stack pointer into the program counter; only register 7 and the program counter change (the
wrap of the stack pointer is spec decision D12). -/
def Obligations.RetRule : Prop :=
  encode .ret = [0x11] ∧
  ∀ s : State, ∃ t, exec .ret s = .next t ∧ t.pc = s.mem.read s.sp.toNat ∧
    (t.reg 7).toNat = (s.sp.toNat + 1) % 256 ∧ SameRegistersBut 7 s t ∧ SameMemory s t ∧ SameFlagsRunOutput s t

/-- HLT enters Halted and changes nothing else, the program counter included (spec decision D11). -/
def Obligations.HltRule : Prop :=
  encode .hlt = [0x01] ∧ ∀ s : State, exec .hlt s = .next { s with run := .halted }

/-! ## Frames: what an instruction leaves unchanged, whether it completes or faults -/

/-- The ten ALU instructions and LDI change no register but their destination, no flag, no byte of memory and no output. -/
def Obligations.RegisterInstructionFrame : Prop :=
  ∀ (a b : Byte) (s t : State) (i : Instr),
    i ∈ [Instr.add a b, .sub a b, .mul a b, .mod a b, .and a b, .or a b, .xor a b, .shl a b, .shr a b, .not a, .ldi a b] →
    exec i s = .next t →
    (∀ k : RegIndex, k.val ≠ a.toNat → t.reg k = s.reg k) ∧ t.flags = s.flags ∧ SameMemory s t ∧ t.out = s.out

/-- CMP, PRN, JMP, the conditional jumps and HLT change no register and no byte of memory; all but CMP keep the flags, and
all but PRN keep the output. -/
def Obligations.RegisterPreservingFrame : Prop :=
  ∀ (a b : Byte) (s t : State) (i : Instr),
    i ∈ [Instr.cmp a b, .prn a, .jmp a, .jeq a, .jne a, .jge a, .jgt a, .jle a, .jlt a, .hlt] →
    exec i s = .next t →
    SameRegisters s t ∧ SameMemory s t ∧ (i ≠ .cmp a b → t.flags = s.flags) ∧ (i ≠ .prn a → t.out = s.out)

/-- PUSH and CALL change no register but register 7, no byte of memory but the one at the decremented stack pointer, no
flag and no output. -/
def Obligations.PushCallFrame : Prop :=
  ∀ (a : Byte) (s t : State) (i : Instr), i ∈ [Instr.push a, .call a] → exec i s = .next t →
    SameRegistersBut 7 s t ∧ SameMemoryBut (pushAddress s).toNat s t ∧ t.flags = s.flags ∧ t.out = s.out

/-- POP changes no register but its destination and register 7, RET none but register 7; neither changes a byte of memory,
a flag or the output. -/
def Obligations.PopRetFrame : Prop :=
  ∀ (a : Byte) (s t : State),
    (exec (.pop a) s = .next t →
      (∀ k : RegIndex, k.val ≠ a.toNat → k ≠ 7 → t.reg k = s.reg k) ∧ t.flags = s.flags ∧ SameMemory s t ∧
        t.out = s.out) ∧
    (exec .ret s = .next t → SameRegistersBut 7 s t ∧ t.flags = s.flags ∧ SameMemory s t ∧ t.out = s.out)

/-! ## Sequences -/

/-- Last in, first out: after pushing the registers `rs`, the pops into `ds` and then `d` put into `d` the value of the
register pushed `ds.length + 1` places from the end, and the stack pointer has moved by the difference; with as many pops
as pushes it is restored. No instruction names register 7 and at most 256 are pushed, from every stack pointer, across
the wrap (the spec's derived rule on symmetry). -/
def Obligations.StackIsLastInFirstOut : Prop :=
  ∀ (s : State) (p : Byte) (rs ds : List RegIndex) (d : RegIndex), s.MemoryCanonical → p.toNat ≤ 253 →
    7 ∉ rs → 7 ∉ ds → d ≠ 7 → ∀ (_ : rs.length ≤ 256) (hn : ds.length + 1 ≤ rs.length),
    ∃ t, execAllAt p (rs.map (fun r => .push (regByte r)) ++ ds.map (fun r => .pop (regByte r)) ++ [.pop (regByte d)]) s =
        some t ∧
      t.reg d = s.reg (rs[rs.length - 1 - ds.length]'(by omega)) ∧
      t.sp.toNat = (s.sp.toNat + 256 + (ds.length + 1) - rs.length) % 256 ∧
      (∀ k, k ≠ 7 → k ∉ ds → k ≠ d → t.reg k = s.reg k)

/-- A RET that finds the stack pointer and the return-address cell as a CALL left them goes to the instruction after the
CALL's operand byte and restores the stack pointer (the spec's derived property of CALL and RET). -/
def Obligations.ReturnFollowsCall : Prop :=
  ∀ (a : Byte) (s t u : State), namesRegister a → s.MemoryCanonical → s.pc.toNat ≤ 253 →
    exec (.call a) s = .next t → u.sp = t.sp → u.mem.read u.sp.toNat = t.mem.read t.sp.toNat →
    ∃ w, exec .ret u = .next w ∧ w.pc.toNat = s.pc.toNat + 2 ∧ w.sp = s.sp

/-- After a CMP of two registers, each conditional jump with a legal operand is taken exactly by the order of their values:
JEQ =, JNE ≠, JGE ≥, JGT >, JLE ≤, and JLT, inverted, ≥ (spec decision D4). -/
def Obligations.CompareThenConditionalJump : Prop :=
  ∀ (a b d : Byte) (ha : namesRegister a) (hb : namesRegister b) (hd : namesRegister d) (s t u : State),
    s.pc.toNat + 3 ≤ 255 → exec (.cmp a b) s = .next t → u.flags = t.flags → u.pc.toNat ≤ 253 →
    let x := (s.reg ⟨a.toNat, ha⟩).toNat
    let y := (s.reg ⟨b.toNat, hb⟩).toNat
    let goes := fun (taken : Prop) (i : Instr) =>
      (taken → exec i u = .next { u with pc := u.reg ⟨d.toNat, hd⟩ }) ∧
      (¬ taken → exec i u = .next { u with pc := u.pc + 2 })
    goes (x = y) (.jeq d) ∧ goes (x ≠ y) (.jne d) ∧ goes (y ≤ x) (.jge d) ∧ goes (y < x) (.jgt d) ∧
      goes (x ≤ y) (.jle d) ∧ goes (y ≤ x) (.jlt d)
end

