-- ==== Sys2Proof/Laws/Decode.lean ====
section
/-!
SUPPORT. What the exact match of the opcode byte can answer, and how an operation and its operand bytes make an
instruction and come back out of it.
-/

namespace Sys2Proof

theorem Opcode.mem_all (o : Opcode) : o ∈ Opcode.all := by cases o <;> decide

/-- A match found is a match (30_encoding.md R63). -/
theorem opcodeOf?_some {m : OpcodeMap} {ir : Byte} {o : Opcode} (h : opcodeOf? m ir = some o) : m o = ir := by
  simpa using List.find?_some h

/-- Nothing is found exactly when no opcode matches (30_encoding.md R58, R63). -/
theorem opcodeOf?_none {m : OpcodeMap} {ir : Byte} : opcodeOf? m ir = none ↔ ∀ o, m o ≠ ir := by
  simp [opcodeOf?, List.find?_eq_none, Opcode.mem_all]

/-- With distinct opcodes the operation of its own opcode byte is found (30_encoding.md R64). -/
theorem opcodeOf?_self {m : OpcodeMap} (hm : ∀ o o', m o = m o' → o = o') (o : Opcode) :
    opcodeOf? m (m o) = some o := by
  cases h : opcodeOf? m (m o) with
  | none => exact absurd rfl (opcodeOf?_none.1 h o)
  | some o' => rw [hm _ _ (opcodeOf?_some h)]

@[simp] theorem opcode_instrOf (o : Opcode) (a b : Byte) : (instrOf o a b).opcode = o := by cases o <;> rfl

/-- The operand bytes of a decoded instruction are the first bytes it was given. -/
theorem operandBytes_instrOf (o : Opcode) (a b : Byte) :
    (instrOf o a b).operandBytes = [a, b].take o.operandCount := by
  cases o <;> rfl

/-- Everything the decoder can answer. -/
theorem decodeWith_cases (m : OpcodeMap) (ir opa opb : Byte) :
    (∃ o, m o = ir ∧ opcodeOf? m ir = some o ∧ decodeWith m ir opa opb = .ok (instrOf o opa opb)) ∨
      ((∀ o, m o ≠ ir) ∧ decodeWith m ir opa opb = .error (.unknownOpcode ir)) := by
  cases h : opcodeOf? m ir with
  | none => exact .inr ⟨opcodeOf?_none.1 h, by simp [decodeWith, h]⟩
  | some o => exact .inl ⟨o, opcodeOf?_some h, rfl, by simp [decodeWith, h]⟩

end Sys2Proof
end

