-- ==== Sys2Proof/Laws/Memory.lean ====
section
/-!
SUPPORT. The laws of memory: a read after a write, the canonical form kept by every operation, and that a canonical memory
is determined by its reads.
-/

namespace Sys2Proof.Machine

@[simp] theorem Memory.read_nil (addr : Nat) : Memory.read [] addr = 0#8 := rfl

theorem Memory.wfFrom_cons {lo a : Nat} {v : Byte} {m : Memory} :
    Memory.wfFrom lo ((a, v) :: m) = true ↔ lo ≤ a ∧ a < 256 ∧ v ≠ 0#8 ∧ Memory.wfFrom (a + 1) m = true := by
  simp [Memory.wfFrom, and_assoc]

/-- A bound may be lowered. -/
theorem Memory.wfFrom_mono {lo hi : Nat} (h : lo ≤ hi) {m : Memory} (hm : Memory.wfFrom hi m = true) :
    Memory.wfFrom lo m = true := by
  cases m with
  | nil => rfl
  | cons c m =>
    obtain ⟨a, v⟩ := c
    rw [Memory.wfFrom_cons] at hm ⊢
    exact ⟨by omega, hm.2⟩

/-- Below the bound of a canonical memory every cell reads 0. -/
theorem Memory.read_below {lo : Nat} {m : Memory} (hm : Memory.wfFrom lo m = true) {addr : Nat} (h : addr < lo) :
    m.read addr = 0#8 := by
  induction m generalizing lo with
  | nil => rfl
  | cons c m ih =>
    obtain ⟨a, v⟩ := c
    rw [Memory.wfFrom_cons] at hm
    rw [Memory.read, if_neg (by omega)]
    exact ih hm.2.2.2 (by omega)

/-- A write leaves every other cell as it was. -/
theorem Memory.read_write_ne (m : Memory) {addr k : Nat} (v : Byte) (h : k ≠ addr) :
    (m.write addr v).read k = m.read k := by
  induction m with
  | nil => by_cases hv : v = 0#8 <;> simp [Memory.write, Memory.read, hv, h]
  | cons c m ih =>
    obtain ⟨a, w⟩ := c
    simp only [Memory.write]
    split_ifs <;> simp_all [Memory.read]

/-- A read after a write to the same cell gives the value written. -/
theorem Memory.read_write_self_from {lo : Nat} {m : Memory} (hm : Memory.wfFrom lo m = true) (addr : Nat) (v : Byte) :
    (m.write addr v).read addr = v := by
  induction m generalizing lo with
  | nil => by_cases hv : v = 0#8 <;> simp [Memory.write, Memory.read, hv]
  | cons c m ih =>
    obtain ⟨a, w⟩ := c
    rw [Memory.wfFrom_cons] at hm
    have below : addr < a + 1 → Memory.read m addr = 0#8 := Memory.read_below hm.2.2.2
    simp only [Memory.write]
    split_ifs with h1 h2 h2 h3
    · rw [Memory.read, if_neg (by omega), below (by omega), h2]
    · simp [Memory.read]
    · rw [below (by omega), h3]
    · simp [Memory.read, h2]
    · rw [Memory.read, if_neg h2]
      exact ih hm.2.2.2

/-- A read after a write to the same cell of a canonical memory gives the value written. -/
theorem Memory.read_write_self {m : Memory} (hm : m.wf = true) (addr : Nat) (v : Byte) :
    (m.write addr v).read addr = v :=
  Memory.read_write_self_from hm addr v

theorem Memory.write_wfFrom {lo : Nat} {m : Memory} (hm : Memory.wfFrom lo m = true) {addr : Nat}
    (hlo : lo ≤ addr) (ha : addr < 256) (v : Byte) : Memory.wfFrom lo (m.write addr v) = true := by
  induction m generalizing lo with
  | nil =>
    by_cases hv : v = 0#8
    · simp [Memory.write, hv, Memory.wfFrom]
    · rw [Memory.write, if_neg hv, Memory.wfFrom_cons]
      exact ⟨hlo, ha, hv, rfl⟩
  | cons c m ih =>
    obtain ⟨a, w⟩ := c
    have hc := hm
    rw [Memory.wfFrom_cons] at hm
    simp only [Memory.write]
    split_ifs with h1 h2 h2 h3
    · exact hc
    · exact Memory.wfFrom_cons.2 ⟨hlo, ha, h2, Memory.wfFrom_cons.2 ⟨h1, hm.2⟩⟩
    · exact Memory.wfFrom_mono (by omega) hm.2.2.2
    · exact Memory.wfFrom_cons.2 ⟨hm.1, hm.2.1, h3, hm.2.2.2⟩
    · exact Memory.wfFrom_cons.2 ⟨hm.1, hm.2.1, hm.2.2.1, ih hm.2.2.2 (by omega)⟩

/-- A write to an address of the address space keeps the canonical form. -/
theorem Memory.write_wf {m : Memory} (hm : m.wf = true) {addr : Nat} (ha : addr < 256) (v : Byte) :
    (m.write addr v).wf = true :=
  Memory.write_wfFrom hm (Nat.zero_le _) ha v

/-- Writing bytes within the address space keeps the canonical form. -/
theorem Memory.writeBytes_wf {m : Memory} (hm : m.wf = true) {addr : Nat} {vs : List Byte}
    (h : addr + vs.length ≤ 256) : (m.writeBytes addr vs).wf = true := by
  induction vs generalizing m addr with
  | nil => exact hm
  | cons v vs ih =>
    simp only [List.length_cons] at h
    exact ih (Memory.write_wf hm (by omega) v) (by omega)

/-- Writing bytes leaves every cell outside them as it was. -/
theorem Memory.read_writeBytes_outside (m : Memory) {addr k : Nat} (vs : List Byte)
    (h : k < addr ∨ addr + vs.length ≤ k) : (m.writeBytes addr vs).read k = m.read k := by
  induction vs generalizing m addr with
  | nil => rfl
  | cons v vs ih =>
    simp only [List.length_cons] at h
    rw [Memory.writeBytes, ih _ (by omega), Memory.read_write_ne _ _ (by omega)]

/-- The canonical form of the empty memory. -/
theorem Memory.wf_nil : Memory.wf [] = true := rfl

theorem Memory.ext_from {lo : Nat} {m n : Memory} (hm : Memory.wfFrom lo m = true) (hn : Memory.wfFrom lo n = true)
    (h : ∀ addr, m.read addr = n.read addr) : m = n := by
  induction m generalizing lo n with
  | nil =>
    cases n with
    | nil => rfl
    | cons c n =>
      obtain ⟨a, v⟩ := c
      exact absurd (by simpa [Memory.read] using (h a).symm) (Memory.wfFrom_cons.1 hn).2.2.1
  | cons c m ih =>
    obtain ⟨a, v⟩ := c
    rw [Memory.wfFrom_cons] at hm
    cases n with
    | nil => exact absurd (by simpa [Memory.read] using h a) hm.2.2.1
    | cons d n =>
      obtain ⟨b, w⟩ := d
      rw [Memory.wfFrom_cons] at hn
      have ha := h a
      have hb := h b
      simp only [Memory.read, if_true] at ha hb
      have hab : a = b := by
        by_contra hne
        rcases Nat.lt_or_gt_of_ne hne with hlt | hlt
        · rw [if_neg hne, Memory.read_below hn.2.2.2 (by omega)] at ha
          exact hm.2.2.1 ha
        · rw [if_neg (Ne.symm hne), Memory.read_below hm.2.2.2 (by omega)] at hb
          exact hn.2.2.1 hb.symm
      subst hab
      rw [if_pos rfl] at ha
      subst ha
      rw [ih hm.2.2.2 hn.2.2.2 fun addr => ?_]
      by_cases hk : addr = a
      · rw [Memory.read_below hm.2.2.2 (by omega), Memory.read_below hn.2.2.2 (by omega)]
      · simpa [Memory.read, hk] using h addr

/-- Two canonical memories that read alike are equal as data. -/
theorem Memory.ext_of_wf {m n : Memory} (hm : m.wf = true) (hn : n.wf = true)
    (h : ∀ addr, m.read addr = n.read addr) : m = n :=
  Memory.ext_from hm hn h

end Sys2Proof.Machine
end

