-- ==== Sys2Proof/Laws/State.lean ====
section
/-!
SUPPORT. One lemma per field per update of the state, so that no later proof unfolds a record update.
-/

namespace Sys2Proof.Machine

/-! ## setReg -/

@[simp] theorem State.pc_setReg (s : State) (i : RegIndex) (v : Byte) : (s.setReg i v).pc = s.pc := rfl
@[simp] theorem State.flags_setReg (s : State) (i : RegIndex) (v : Byte) : (s.setReg i v).flags = s.flags := rfl
@[simp] theorem State.mem_setReg (s : State) (i : RegIndex) (v : Byte) : (s.setReg i v).mem = s.mem := rfl
@[simp] theorem State.run_setReg (s : State) (i : RegIndex) (v : Byte) : (s.setReg i v).run = s.run := rfl
@[simp] theorem State.out_setReg (s : State) (i : RegIndex) (v : Byte) : (s.setReg i v).out = s.out := rfl
@[simp] theorem State.reg_setReg_self (s : State) (i : RegIndex) (v : Byte) : (s.setReg i v).reg i = v := by
  simp [State.reg, State.setReg]
@[simp] theorem State.reg_setReg_ne (s : State) {i k : RegIndex} (v : Byte) (h : k ≠ i) :
    (s.setReg i v).reg k = s.reg k := by
  simp only [State.reg, State.setReg, Fin.getElem_fin]
  exact Vector.getElem_set_ne _ _ fun e => h (Fin.ext e.symm)

/-! ## setPc -/

@[simp] theorem State.pc_setPc (s : State) (p : Byte) : (s.setPc p).pc = p := rfl
@[simp] theorem State.flags_setPc (s : State) (p : Byte) : (s.setPc p).flags = s.flags := rfl
@[simp] theorem State.mem_setPc (s : State) (p : Byte) : (s.setPc p).mem = s.mem := rfl
@[simp] theorem State.run_setPc (s : State) (p : Byte) : (s.setPc p).run = s.run := rfl
@[simp] theorem State.out_setPc (s : State) (p : Byte) : (s.setPc p).out = s.out := rfl
@[simp] theorem State.reg_setPc (s : State) (p : Byte) (k : RegIndex) : (s.setPc p).reg k = s.reg k := rfl

/-! ## setFlags -/

@[simp] theorem State.pc_setFlags (s : State) (f : Flags) : (s.setFlags f).pc = s.pc := rfl
@[simp] theorem State.flags_setFlags (s : State) (f : Flags) : (s.setFlags f).flags = f := rfl
@[simp] theorem State.mem_setFlags (s : State) (f : Flags) : (s.setFlags f).mem = s.mem := rfl
@[simp] theorem State.run_setFlags (s : State) (f : Flags) : (s.setFlags f).run = s.run := rfl
@[simp] theorem State.out_setFlags (s : State) (f : Flags) : (s.setFlags f).out = s.out := rfl
@[simp] theorem State.reg_setFlags (s : State) (f : Flags) (k : RegIndex) : (s.setFlags f).reg k = s.reg k := rfl

/-! ## setRun -/

@[simp] theorem State.pc_setRun (s : State) (r : RunState) : (s.setRun r).pc = s.pc := rfl
@[simp] theorem State.flags_setRun (s : State) (r : RunState) : (s.setRun r).flags = s.flags := rfl
@[simp] theorem State.mem_setRun (s : State) (r : RunState) : (s.setRun r).mem = s.mem := rfl
@[simp] theorem State.run_setRun (s : State) (r : RunState) : (s.setRun r).run = r := rfl
@[simp] theorem State.out_setRun (s : State) (r : RunState) : (s.setRun r).out = s.out := rfl
@[simp] theorem State.reg_setRun (s : State) (r : RunState) (k : RegIndex) : (s.setRun r).reg k = s.reg k := rfl

/-! ## output -/

@[simp] theorem State.pc_output (s : State) (v : Byte) : (s.output v).pc = s.pc := rfl
@[simp] theorem State.flags_output (s : State) (v : Byte) : (s.output v).flags = s.flags := rfl
@[simp] theorem State.mem_output (s : State) (v : Byte) : (s.output v).mem = s.mem := rfl
@[simp] theorem State.run_output (s : State) (v : Byte) : (s.output v).run = s.run := rfl
@[simp] theorem State.out_output (s : State) (v : Byte) : (s.output v).out = s.out ++ [v] := rfl
@[simp] theorem State.reg_output (s : State) (v : Byte) (k : RegIndex) : (s.output v).reg k = s.reg k := rfl

/-! ## setMem -/

@[simp] theorem State.pc_setMem (s : State) (m : Memory) : (s.setMem m).pc = s.pc := rfl
@[simp] theorem State.flags_setMem (s : State) (m : Memory) : (s.setMem m).flags = s.flags := rfl
@[simp] theorem State.mem_setMem (s : State) (m : Memory) : (s.setMem m).mem = m := rfl
@[simp] theorem State.run_setMem (s : State) (m : Memory) : (s.setMem m).run = s.run := rfl
@[simp] theorem State.out_setMem (s : State) (m : Memory) : (s.setMem m).out = s.out := rfl
@[simp] theorem State.reg_setMem (s : State) (m : Memory) (k : RegIndex) : (s.setMem m).reg k = s.reg k := rfl

/-! ## The stack pointer is register 7 -/

/-- The stack pointer is another name of register 7 (10_state.md R14). -/
theorem State.sp_eq_reg (s : State) : s.sp = s.reg Config.spIndex := rfl

/-- Writing the stack pointer is writing register 7 (10_state.md R14). -/
theorem State.setSp_eq_setReg (s : State) (v : Byte) : s.setSp v = s.setReg Config.spIndex v := rfl

/-- Two states with equal registers, field by field, have equal register files. -/
theorem State.regs_ext {s t : State} (h : ∀ k, s.reg k = t.reg k) : s.regs = t.regs :=
  Vector.ext fun k hk => h ⟨k, hk⟩

end Sys2Proof.Machine
end

