-- ==== Sys2Proof/Laws/Ops.lean ====
section
/-!
SUPPORT. One lemma per shared operation that says once everything it can do; later proofs cite these instead of unfolding
the operation.
-/

namespace Sys2Proof.Machine

/-! ## Chains of operations that can raise -/

@[simp] theorem except_ok_bind {α β : Type} (a : α) (f : α → Except FaultReport β) :
    (Except.ok a >>= f) = f a := rfl

@[simp] theorem except_error_bind {α β : Type} (r : FaultReport) (f : α → Except FaultReport β) :
    (Except.error r >>= f) = Except.error r := rfl

@[simp] theorem except_pure {α : Type} (a : α) : (pure a : Except FaultReport α) = Except.ok a := rfl

/-- A chain completes when each of its operations does. -/
theorem except_bind_eq_ok {α β : Type} {x : Except FaultReport α} {f : α → Except FaultReport β} {b : β} :
    (x >>= f) = .ok b ↔ ∃ a, x = .ok a ∧ f a = .ok b := by
  cases x <;> simp

/-- A chain raises what its first raising operation raises. -/
theorem except_bind_eq_error {α β : Type} {x : Except FaultReport α} {f : α → Except FaultReport β} {r : FaultReport} :
    (x >>= f) = .error r ↔ x = .error r ∨ ∃ a, x = .ok a ∧ f a = .error r := by
  cases x <;> simp

@[simp] theorem complete_ok (s t : State) : complete s (.ok t) = .next t := rfl

@[simp] theorem complete_error (s : State) (r : FaultReport) : complete s (.error r) = .next (takeFault r s) := rfl

/-- An instruction answers a next state: that of its own writes, or the fault entry (60_exceptions.md R148). -/
theorem complete_eq_next {s t : State} {x : Except FaultReport State} (h : complete s x = .next t) :
    x = .ok t ∨ ∃ r, x = .error r ∧ t = takeFault r s := by
  cases x with
  | ok u => exact .inl (by simpa using h)
  | error r => exact .inr ⟨r, rfl, by simpa using h.symm⟩

/-! ## Arithmetic -/

/-- `trunc8(v) = v mod 256` (00_scope.md R6). -/
theorem toNat_trunc8 (v : Int) : ((trunc8 v).toNat : Int) = v % 256 := by
  simp only [trunc8, BitVec.toNat_ofInt]
  have := Int.emod_nonneg v (b := ((2 ^ 8 : Nat) : Int)) (by decide)
  rw [Int.toNat_of_nonneg this]
  rfl

/-- On a natural number. -/
theorem toNat_trunc8_nat (n : Nat) : (trunc8 (n : Int)).toNat = n % 256 := by
  have := toNat_trunc8 (n : Int)
  omega

/-- A byte is below 256. -/
theorem byte_lt (v : Byte) : v.toNat < 256 := v.isLt

/-- The stack pointer after the decrement of a push wraps from 0 to 255 (10_state.md R14). -/
theorem toNat_pushAddress (s : State) : (pushAddress s).toNat = (s.sp.toNat + 255) % 256 := by
  have h := toNat_trunc8 ((s.sp.toNat : Int) - 1)
  have := byte_lt s.sp
  unfold pushAddress
  omega

/-! ## Register operands -/

/-- A byte of 0 to 7 names its register (30_encoding.md R54). -/
theorem regOperand_ok {v : Byte} (s : State) (h : namesRegister v) : regOperand v s = .ok ⟨v.toNat, h⟩ := dif_pos h

/-- A byte of 8 to 255 raises (30_encoding.md R54). -/
theorem regOperand_error {v : Byte} (s : State) (h : ¬ namesRegister v) :
    regOperand v s = .error (.outOfRange (.register v) s.pc) := dif_neg h

/-- Everything a register operand can answer. -/
theorem regOperand_cases (v : Byte) (s : State) :
    (∃ h : namesRegister v, regOperand v s = .ok ⟨v.toNat, h⟩) ∨
      (¬ namesRegister v ∧ regOperand v s = .error (.outOfRange (.register v) s.pc)) := by
  by_cases h : namesRegister v
  · exact .inl ⟨h, regOperand_ok s h⟩
  · exact .inr ⟨h, regOperand_error s h⟩

/-! ## Memory accesses -/

theorem memRead_ok {addr : Nat} (s : State) (h : addr < 256) : memRead addr s = .ok (s.mem.read addr) :=
  if_pos h

theorem memRead_error {addr : Nat} (s : State) (h : ¬ addr < 256) :
    memRead addr s = .error (.outOfRange (.memory addr) s.pc) := if_neg h

/-- A read at an address held in a byte never raises (20_memory.md R32). -/
@[simp] theorem memRead_byte (a : Byte) (s : State) : memRead a.toNat s = .ok (s.mem.read a.toNat) :=
  memRead_ok s a.isLt

/-- A write at an address held in a byte never raises (20_memory.md R32). -/
@[simp] theorem memWrite_byte (a v : Byte) (s : State) :
    memWrite a.toNat v s = .ok (s.setMem (s.mem.write a.toNat v)) := if_pos a.isLt

/-- The stack is always readable (20_memory.md R32). -/
theorem topOfStack_eq (s : State) : topOfStack s = .ok (s.mem.read s.sp.toNat) := memRead_byte s.sp s

@[simp] theorem sp_decrementSp (s : State) : (decrementSp s).sp = pushAddress s := State.reg_setReg_self ..

theorem reg_decrementSp_ne (s : State) {k : RegIndex} (h : k ≠ Config.spIndex) : (decrementSp s).reg k = s.reg k :=
  State.reg_setReg_ne _ _ h

/-- A push never raises; this is all it does (42_data_stack.md R112). -/
theorem pushByte_eq (src : State → Byte) (s : State) :
    pushByte src s =
      .ok ((decrementSp s).setMem (s.mem.write (pushAddress s).toNat (src (decrementSp s)))) := by
  simp only [pushByte, sp_decrementSp, memWrite_byte]
  rfl

/-! ## The program-counter incrementer -/

/-- The advance within the address space (40_sequencer.md R75). -/
theorem advance_ok {n : Nat} {s : State} (t : State) (h : s.pc.toNat + n < 256) :
    advance n s t = .ok (t.setPc (BitVec.ofNat 8 (s.pc.toNat + n))) := if_pos h

/-- The advance past 255 (40_sequencer.md R75). -/
theorem advance_error {n : Nat} {s : State} (t : State) (h : ¬ s.pc.toNat + n < 256) :
    advance n s t = .error (.outOfRange (.memory (s.pc.toNat + n)) s.pc) := if_neg h

/-- Everything the incrementer can answer. -/
theorem advance_cases (n : Nat) (s t : State) :
    (s.pc.toNat + n < 256 ∧ advance n s t = .ok (t.setPc (BitVec.ofNat 8 (s.pc.toNat + n)))) ∨
      (¬ s.pc.toNat + n < 256 ∧
        advance n s t = .error (.outOfRange (.memory (s.pc.toNat + n)) s.pc)) := by
  by_cases h : s.pc.toNat + n < 256
  · exact .inl ⟨h, advance_ok t h⟩
  · exact .inr ⟨h, advance_error t h⟩

/-- The advanced program counter is the sum, not reduced. -/
theorem toNat_advanced {n : Nat} {p : Byte} (h : p.toNat + n < 256) :
    (BitVec.ofNat 8 (p.toNat + n)).toNat = p.toNat + n := by
  simp only [BitVec.toNat_ofNat]
  exact Nat.mod_eq_of_lt h

/-! ## Jumps -/

/-- A jump to a named register (43_control_compare.md R121). -/
theorem jumpTo_ok {a : Byte} (s : State) (h : namesRegister a) :
    jumpTo a s = .ok (s.setPc (s.reg ⟨a.toNat, h⟩)) := by
  simp [jumpTo, regOperand_ok s h]

/-- A jump whose operand byte names no register (43_control_compare.md R121). -/
theorem jumpTo_error {a : Byte} (s : State) (h : ¬ namesRegister a) :
    jumpTo a s = .error (.outOfRange (.register a) s.pc) := by
  simp [jumpTo, regOperand_error s h]

end Sys2Proof.Machine
end

