-- ==== Sys2Proof/Laws/Exec.lean ====
section
/-!
SUPPORT. What the shared shapes of the meanings, the fetch and the step can answer.
-/

namespace Sys2Proof.Machine

/-- Whatever completes or raises answers a next state. -/
theorem complete_is_next (s : State) (x : Except FaultReport State) : ∃ t, complete s x = .next t := by
  cases x <;> simp

/-! ## What an instruction that completes did -/

/-- A two-register ALU instruction completed: `t` is `s` with the result in `x[a]` and the program counter advanced. -/
def AluCompleted (op : AluOp) (a b : Byte) (s t : State) : Prop :=
  ∃ (ha : namesRegister a) (hb : namesRegister b), s.pc.toNat + 3 < 256 ∧
    t = (s.setReg ⟨a.toNat, ha⟩ (aluResult op (s.reg ⟨a.toNat, ha⟩) (s.reg ⟨b.toNat, hb⟩))).setPc
      (BitVec.ofNat 8 (s.pc.toNat + 3))

/-- A conditional jump completed: taken to its register, or advanced by 2. -/
def CondJumpCompleted (cond : Flags → Bool) (a : Byte) (s t : State) : Prop :=
  (cond s.flags = true ∧ ∃ ha : namesRegister a, t = s.setPc (s.reg ⟨a.toNat, ha⟩)) ∨
    (cond s.flags = false ∧ s.pc.toNat + 2 < 256 ∧ t = s.setPc (BitVec.ofNat 8 (s.pc.toNat + 2)))

/-- The instruction completed in `t`: its effect, without its faults. -/
def Completed (i : Instr) (s t : State) : Prop :=
  match i with
  | .hlt => t = s.setRun .halted
  | .ret => t = incrementSp (s.setPc (s.mem.read s.sp.toNat))
  | .push a => ∃ ha : namesRegister a, s.pc.toNat + 2 < 256 ∧
      t = ((decrementSp s).setMem
        (s.mem.write (pushAddress s).toNat ((decrementSp s).reg ⟨a.toNat, ha⟩))).setPc (BitVec.ofNat 8 (s.pc.toNat + 2))
  | .pop a => ∃ ha : namesRegister a, s.pc.toNat + 2 < 256 ∧
      t = (incrementSp (s.setReg ⟨a.toNat, ha⟩ (s.mem.read s.sp.toNat))).setPc (BitVec.ofNat 8 (s.pc.toNat + 2))
  | .prn a => ∃ ha : namesRegister a, s.pc.toNat + 2 < 256 ∧
      t = (s.output (s.reg ⟨a.toNat, ha⟩)).setPc (BitVec.ofNat 8 (s.pc.toNat + 2))
  | .call a => ∃ ha : namesRegister a,
      t = ((decrementSp s).setMem (s.mem.write (pushAddress s).toNat (returnAddress s))).setPc
        ((decrementSp s).reg ⟨a.toNat, ha⟩)
  | .jmp a => ∃ ha : namesRegister a, t = s.setPc (s.reg ⟨a.toNat, ha⟩)
  | .jeq a => CondJumpCompleted condJeq a s t
  | .jne a => CondJumpCompleted condJne a s t
  | .jgt a => CondJumpCompleted condJgt a s t
  | .jlt a => CondJumpCompleted condJlt a s t
  | .jle a => CondJumpCompleted condJle a s t
  | .jge a => CondJumpCompleted condJge a s t
  | .not a => ∃ ha : namesRegister a, s.pc.toNat + 2 < 256 ∧
      t = (s.setReg ⟨a.toNat, ha⟩ (notResult (s.reg ⟨a.toNat, ha⟩))).setPc (BitVec.ofNat 8 (s.pc.toNat + 2))
  | .ldi a imm => ∃ ha : namesRegister a, s.pc.toNat + 3 < 256 ∧
      t = (s.setReg ⟨a.toNat, ha⟩ imm).setPc (BitVec.ofNat 8 (s.pc.toNat + 3))
  | .add a b => AluCompleted .add a b s t
  | .sub a b => AluCompleted .sub a b s t
  | .mul a b => AluCompleted .mul a b s t
  | .mod a b => AluCompleted .mod a b s t ∧ ∀ hb : namesRegister b, s.reg ⟨b.toNat, hb⟩ ≠ 0#8
  | .cmp a b => ∃ (ha : namesRegister a) (hb : namesRegister b), s.pc.toNat + 3 < 256 ∧
      t = (s.setFlags (compareFlags (s.reg ⟨a.toNat, ha⟩) (s.reg ⟨b.toNat, hb⟩))).setPc
        (BitVec.ofNat 8 (s.pc.toNat + 3))
  | .and a b => AluCompleted .and a b s t
  | .or a b => AluCompleted .or a b s t
  | .xor a b => AluCompleted .xor a b s t
  | .shl a b => AluCompleted .shl a b s t
  | .shr a b => AluCompleted .shr a b s t

/-- An operand that is checked and then used. -/
theorem regOperand_bind_eq_ok {v : Byte} {s t : State} {f : RegIndex → Except FaultReport State} :
    (regOperand v s >>= f) = .ok t ↔ ∃ h : namesRegister v, f ⟨v.toNat, h⟩ = .ok t := by
  by_cases h : namesRegister v
  · simp [regOperand_ok s h, h]
  · simp [regOperand_error s h, h]

/-- An advance that did not raise. -/
theorem advance_eq_ok {n : Nat} {s t u : State} :
    advance n s t = .ok u ↔ s.pc.toNat + n < 256 ∧ u = t.setPc (BitVec.ofNat 8 (s.pc.toNat + n)) := by
  by_cases h : s.pc.toNat + n < 256
  · simp [advance_ok t h, h, eq_comm]
  · simp [advance_error t h, h]

/-- A divisor that was not 0. -/
theorem checkDivisor_bind_eq_ok {v : Byte} {s t : State} {f : Unit → Except FaultReport State} :
    (checkDivisor v s >>= f) = .ok t ↔ v ≠ 0#8 ∧ f () = .ok t := by
  by_cases h : v = 0#8 <;> simp [checkDivisor, h]

/-- Completing is answering the next state of an operation that did not raise, or a fault entry. -/
theorem complete_eq_next_of {s t : State} {x : Except FaultReport State} {P : Prop} (h : complete s x = .next t)
    (hx : x = .ok t → P) : P ∨ ∃ r, t = takeFault r s := by
  rcases complete_eq_next h with h | ⟨r, _, h⟩
  · exact .inl (hx h)
  · exact .inr ⟨r, h⟩

/-- Everything a two-register ALU instruction can answer (41_alu.md R90). -/
theorem aluTwo_cases {op : AluOp} {a b : Byte} {s t : State} (h : aluTwo op a b s = .next t) :
    AluCompleted op a b s t ∨ ∃ r, t = takeFault r s :=
  complete_eq_next_of h fun h => by
    simp only [regOperand_bind_eq_ok, advance_eq_ok] at h
    exact h

/-- Everything a conditional jump can answer (43_control_compare.md R122). -/
theorem condJump_cases {cond : Flags → Bool} {a : Byte} {s t : State} (h : condJump cond a s = .next t) :
    CondJumpCompleted cond a s t ∨ ∃ r, t = takeFault r s :=
  complete_eq_next_of h fun h => by
    by_cases hc : cond s.flags = true
    · rw [if_pos hc] at h
      simp only [jumpTo, regOperand_bind_eq_ok, except_pure, Except.ok.injEq, eq_comm (b := t)] at h
      exact .inl ⟨hc, h⟩
    · rw [if_neg hc, advance_eq_ok] at h
      exact .inr ⟨by simpa using hc, h⟩

/-- Everything an instruction can do: it completes with its effect, or it takes a fault, which changes the run state alone
(60_exceptions.md R148). -/
theorem exec_cases {i : Instr} {s t : State} (h : exec i s = .next t) : Completed i s t ∨ ∃ r, t = takeFault r s := by
  cases i with
  | hlt => exact .inl (Host.Outcome.next.inj h).symm
  | ret =>
    exact complete_eq_next_of h fun h => by
      simp only [topOfStack_eq, except_ok_bind, except_pure, Except.ok.injEq] at h
      exact h.symm
  | push a =>
    exact complete_eq_next_of h fun h => by
      simp only [regOperand_bind_eq_ok, pushByte_eq, except_ok_bind, advance_eq_ok] at h
      exact h
  | pop a =>
    exact complete_eq_next_of h fun h => by
      simp only [regOperand_bind_eq_ok, topOfStack_eq, except_ok_bind, advance_eq_ok] at h
      exact h
  | call a =>
    exact complete_eq_next_of h fun h => by
      simp only [regOperand_bind_eq_ok, pushByte_eq, except_ok_bind, except_pure, Except.ok.injEq, eq_comm (b := t)] at h
      exact h
  | jmp a =>
    exact complete_eq_next_of h fun h => by
      simp only [jumpTo, regOperand_bind_eq_ok, except_pure, Except.ok.injEq, eq_comm (b := t)] at h
      exact h
  | mod a b =>
    exact complete_eq_next_of h fun h => by
      simp only [regOperand_bind_eq_ok, checkDivisor_bind_eq_ok, advance_eq_ok] at h
      obtain ⟨ha, hb, h0, h⟩ := h
      exact ⟨⟨ha, hb, h⟩, fun _ => h0⟩
  | prn a | not a | ldi a imm | cmp a b =>
    exact complete_eq_next_of h fun h => by
      simp only [regOperand_bind_eq_ok, advance_eq_ok] at h
      exact h
  | jeq a | jne a | jgt a | jlt a | jle a | jge a => exact condJump_cases h
  | add a b | sub a b | mul a b | and a b | or a b | xor a b | shl a b | shr a b => exact aluTwo_cases h

/-! ## The fetch and the step -/

/-- The fetch below address 254 reads three bytes (40_sequencer.md R71). -/
theorem fetch_ok {s : State} (h : s.pc.toNat + 2 < 256) :
    fetch s = .ok (s.mem.read s.pc.toNat, s.mem.read (s.pc.toNat + 1), s.mem.read (s.pc.toNat + 2)) := by
  simp [fetch, memRead_ok s (addr := s.pc.toNat + 1) (by omega), memRead_ok s h]

/-- The fetch at 254 or 255 raises (40_sequencer.md R71). -/
theorem fetch_error {s : State} (h : ¬ s.pc.toNat + 2 < 256) :
    fetch s = .error (.outOfRange (.memory 256) s.pc) := by
  have hlt := byte_lt s.pc
  have high : memRead 256 s = .error (.outOfRange (.memory 256) s.pc) := memRead_error s (by omega)
  by_cases h1 : s.pc.toNat + 1 < 256
  · have e : s.pc.toNat + 2 = 256 := by omega
    simp [fetch, memRead_ok s h1, e, high]
  · have e : s.pc.toNat + 1 = 256 := by omega
    simp [fetch, e, high]

/-- A step of the running machine is a cycle (40_sequencer.md R70). -/
theorem stepWith_running (c : Config) {s : State} (h : s.run = .running) : stepWith c s = runCycle c s := by
  simp [stepWith, h]

/-- A step of the ended machine changes nothing (40_sequencer.md R77). -/
theorem stepWith_ended (c : Config) {s : State} (h : s.run ≠ .running) : stepWith c s = .next s := by
  unfold stepWith
  split <;> simp_all

/-- A cycle whose fetch fails (40_sequencer.md R71). -/
theorem runCycle_fetch_error (c : Config) {s : State} (h : ¬ s.pc.toNat + 2 < 256) :
    runCycle c s = .next (takeFault (.outOfRange (.memory 256) s.pc) s) := by
  simp [runCycle, fetch_error h]

/-- A cycle whose fetch succeeds (40_sequencer.md R72). -/
theorem runCycle_fetch_ok (c : Config) {s : State} (h : s.pc.toNat + 2 < 256) :
    runCycle c s = decodeAndExecute c (s.mem.read s.pc.toNat) (s.mem.read (s.pc.toNat + 1))
      (s.mem.read (s.pc.toNat + 2)) s := by
  simp [runCycle, fetch_ok h]

end Sys2Proof.Machine
end

