-- ==== Sys2Proof/Laws/PerInstr.lean ====
section
/-!
SUPPORT. A statement about every instruction as syntax: the length of its encoding is what its opcode byte announces
(30_encoding.md R51, R60).
-/

namespace Sys2Proof

/-- The encoding is as long as the size field of its own opcode byte says. -/
def Laws.EncodedLength.Statement (i : Instr) : Prop := (encode i).length = instrSize (opc i.opcode)

/-- Bits 7:6 of every default opcode are its number of operand bytes (30_encoding.md R56). -/
theorem sizeField_opc (o : Opcode) : sizeField (opc o) = o.operandCount := by cases o <;> decide

theorem Laws.EncodedLength.hlt : Laws.EncodedLength.Statement .hlt :=
  congrArg (· + 1) (sizeField_opc .hlt).symm

theorem Laws.EncodedLength.ret : Laws.EncodedLength.Statement .ret :=
  congrArg (· + 1) (sizeField_opc .ret).symm

theorem Laws.EncodedLength.push (a : Byte) : Laws.EncodedLength.Statement (.push a) :=
  congrArg (· + 1) (sizeField_opc .push).symm

theorem Laws.EncodedLength.pop (a : Byte) : Laws.EncodedLength.Statement (.pop a) :=
  congrArg (· + 1) (sizeField_opc .pop).symm

theorem Laws.EncodedLength.prn (a : Byte) : Laws.EncodedLength.Statement (.prn a) :=
  congrArg (· + 1) (sizeField_opc .prn).symm

theorem Laws.EncodedLength.call (a : Byte) : Laws.EncodedLength.Statement (.call a) :=
  congrArg (· + 1) (sizeField_opc .call).symm

theorem Laws.EncodedLength.jmp (a : Byte) : Laws.EncodedLength.Statement (.jmp a) :=
  congrArg (· + 1) (sizeField_opc .jmp).symm

theorem Laws.EncodedLength.jeq (a : Byte) : Laws.EncodedLength.Statement (.jeq a) :=
  congrArg (· + 1) (sizeField_opc .jeq).symm

theorem Laws.EncodedLength.jne (a : Byte) : Laws.EncodedLength.Statement (.jne a) :=
  congrArg (· + 1) (sizeField_opc .jne).symm

theorem Laws.EncodedLength.jgt (a : Byte) : Laws.EncodedLength.Statement (.jgt a) :=
  congrArg (· + 1) (sizeField_opc .jgt).symm

theorem Laws.EncodedLength.jlt (a : Byte) : Laws.EncodedLength.Statement (.jlt a) :=
  congrArg (· + 1) (sizeField_opc .jlt).symm

theorem Laws.EncodedLength.jle (a : Byte) : Laws.EncodedLength.Statement (.jle a) :=
  congrArg (· + 1) (sizeField_opc .jle).symm

theorem Laws.EncodedLength.jge (a : Byte) : Laws.EncodedLength.Statement (.jge a) :=
  congrArg (· + 1) (sizeField_opc .jge).symm

theorem Laws.EncodedLength.not (a : Byte) : Laws.EncodedLength.Statement (.not a) :=
  congrArg (· + 1) (sizeField_opc .not).symm

theorem Laws.EncodedLength.ldi (a imm : Byte) : Laws.EncodedLength.Statement (.ldi a imm) :=
  congrArg (· + 1) (sizeField_opc .ldi).symm

theorem Laws.EncodedLength.add (a b : Byte) : Laws.EncodedLength.Statement (.add a b) :=
  congrArg (· + 1) (sizeField_opc .add).symm

theorem Laws.EncodedLength.sub (a b : Byte) : Laws.EncodedLength.Statement (.sub a b) :=
  congrArg (· + 1) (sizeField_opc .sub).symm

theorem Laws.EncodedLength.mul (a b : Byte) : Laws.EncodedLength.Statement (.mul a b) :=
  congrArg (· + 1) (sizeField_opc .mul).symm

theorem Laws.EncodedLength.mod (a b : Byte) : Laws.EncodedLength.Statement (.mod a b) :=
  congrArg (· + 1) (sizeField_opc .mod).symm

theorem Laws.EncodedLength.cmp (a b : Byte) : Laws.EncodedLength.Statement (.cmp a b) :=
  congrArg (· + 1) (sizeField_opc .cmp).symm

theorem Laws.EncodedLength.and (a b : Byte) : Laws.EncodedLength.Statement (.and a b) :=
  congrArg (· + 1) (sizeField_opc .and).symm

theorem Laws.EncodedLength.or (a b : Byte) : Laws.EncodedLength.Statement (.or a b) :=
  congrArg (· + 1) (sizeField_opc .or).symm

theorem Laws.EncodedLength.xor (a b : Byte) : Laws.EncodedLength.Statement (.xor a b) :=
  congrArg (· + 1) (sizeField_opc .xor).symm

theorem Laws.EncodedLength.shl (a b : Byte) : Laws.EncodedLength.Statement (.shl a b) :=
  congrArg (· + 1) (sizeField_opc .shl).symm

theorem Laws.EncodedLength.shr (a b : Byte) : Laws.EncodedLength.Statement (.shr a b) :=
  congrArg (· + 1) (sizeField_opc .shr).symm

end Sys2Proof
end

