-- ==== Sys2Proof/Machine/Ports.lean ====
section
/-!
DEFINITION. The port list the spec suggests for a hardware realisation (70_reset_and_hazards.md R182; decision D18), and
the fault codes of the host-visible report (60_exceptions.md R145; decision D10). No rule depends on the ports, and no
other file of the model uses this one.
-/

namespace Sys2Proof.Machine

/-- The code of a fault kind (60_exceptions.md R145). -/
def FaultReport.code : FaultReport → BitVec 3
  | .unknownOpcode _ _ => 1
  | .moduloByZero _ => 2
  | .outOfRange _ _ => 3
  | .unsupportedAluOp => 4

/-- The port `fault_code`: 0 while not faulted, else the code of the kind (70_reset_and_hazards.md R182). -/
def State.faultCode (s : State) : BitVec 3 :=
  match s.run with
  | .running => 0
  | .halted => 0
  | .faulted r => r.code

/-- The offending value the port `fault_info` shows: the address, the register byte or the opcode byte
(70_reset_and_hazards.md R182). Where the spec names no value there is none. -/
def FaultReport.info : FaultReport → Option (BitVec 9)
  | .unknownOpcode _ ir => some (ir.setWidth 9)
  | .moduloByZero _ => none
  | .outOfRange (.memory addr) _ => some (BitVec.ofNat 9 addr)
  | .outOfRange (.register v) _ => some (v.setWidth 9)
  | .unsupportedAluOp => none

/-- The port `fault_info`. -/
def State.faultInfo (s : State) : Option (BitVec 9) :=
  match s.run with
  | .running => none
  | .halted => none
  | .faulted r => r.info

/-- The port `halted` (70_reset_and_hazards.md R182). -/
def State.haltedPort (s : State) : Bool := s.run == .halted

/-- The port `pc_out` (70_reset_and_hazards.md R182). -/
def State.pcOut (s : State) : Byte := s.pc

/-- The ports `out_valid` and `out_data` of the step from `s` to `t`: the value a PRN printed in it, if one did
(70_reset_and_hazards.md R182). -/
def outPort (s t : State) : Option Byte := t.out[s.out.length]?

/-- The input ports (70_reset_and_hazards.md R182). -/
structure InputPorts where
  rst : Bool
  stepEn : Bool
  loadEn : Bool
  loadAddr : Byte
  loadData : Byte
  deriving DecidableEq, Repr

/-- One rising edge of `clk` (70_reset_and_hazards.md R182). DESIGN CHOICE: `rst` comes before the other inputs, and
`step_en` with `load_en` is refused by name, since the spec gives no effect for it. Log entry 5. -/
def clockEdge (c : Config) (p : InputPorts) (h : Session) : Host.Outcome Session Fault Refusal :=
  if p.rst then hostAct c h .reset
  else if p.stepEn && p.loadEn then .refused .portConflict
  else if p.loadEn then
    if h.fresh then .next ⟨h.core.setMem (h.core.mem.write p.loadAddr.toNat p.loadData), true⟩
    else .refused .loadOutsideWindow
  else if p.stepEn then hostAct c h .step
  else .next h

end Sys2Proof.Machine
end

