-- ==== Sys2Proof/Tests/Slice0.lean ====
section
/-!
SUPPORT. The model's own tests. An expected result is a vector of spec/95_test_vectors.md (its id is in the comment) or an
encoding of 30_encoding.md section 3 written out bit by bit. At the end, for every statement with hypotheses, a named
theorem that meets them, each clause at a boundary.
-/

namespace Sys2Proof.Tests

open Sys2Proof.Machine

/-! ## Well-formedness -/


/-- A register byte of 8 as operand a is refused. -/
theorem test_wellFormed_refuses_a : ¬ (Instr.add 8 0).WellFormed := by decide

/-- A register byte of 8 as operand b is refused. -/
theorem test_wellFormed_refuses_b : ¬ (Instr.add 0 8).WellFormed := by decide

/-- A one-register instruction with a register byte of 255 is refused. -/
theorem test_wellFormed_refuses_jump : ¬ (Instr.jmp 255).WellFormed := by decide

/-- The destination of LDI is checked, its immediate is not. -/
theorem test_wellFormed_ldi : ¬ (Instr.ldi 8 5).WellFormed ∧ (Instr.ldi 7 255).WellFormed := by decide

/-! ## Decoding: one word per instruction, from 30_encoding.md section 3 -/

theorem test_decode_hlt : decode 0b00000001 0b11111111 0b11111111 = .ok .hlt := by decide
theorem test_decode_ret : decode 0b00010001 0b11111111 0b11111111 = .ok .ret := by decide
theorem test_decode_push : decode 0b01000101 0b00000101 0b11111111 = .ok (.push 5) := by decide
theorem test_decode_pop : decode 0b01000110 0b00000101 0b11111111 = .ok (.pop 5) := by decide
theorem test_decode_prn : decode 0b01000111 0b00000101 0b11111111 = .ok (.prn 5) := by decide
theorem test_decode_call : decode 0b01010000 0b00000101 0b11111111 = .ok (.call 5) := by decide
theorem test_decode_jmp : decode 0b01010100 0b00000101 0b11111111 = .ok (.jmp 5) := by decide
theorem test_decode_jeq : decode 0b01010101 0b00000101 0b11111111 = .ok (.jeq 5) := by decide
theorem test_decode_jne : decode 0b01010110 0b00000101 0b11111111 = .ok (.jne 5) := by decide
theorem test_decode_jgt : decode 0b01010111 0b00000101 0b11111111 = .ok (.jgt 5) := by decide
theorem test_decode_jlt : decode 0b01011000 0b00000101 0b11111111 = .ok (.jlt 5) := by decide
theorem test_decode_jle : decode 0b01011001 0b00000101 0b11111111 = .ok (.jle 5) := by decide
theorem test_decode_jge : decode 0b01011010 0b00000101 0b11111111 = .ok (.jge 5) := by decide
theorem test_decode_not : decode 0b01101001 0b00000101 0b11111111 = .ok (.not 5) := by decide
theorem test_decode_ldi : decode 0b10000010 0b00000110 0b10000001 = .ok (.ldi 6 0x81) := by decide
theorem test_decode_add : decode 0b10100000 0b00000110 0b00000011 = .ok (.add 6 3) := by decide
theorem test_decode_sub : decode 0b10100001 0b00000110 0b00000011 = .ok (.sub 6 3) := by decide
theorem test_decode_mul : decode 0b10100010 0b00000110 0b00000011 = .ok (.mul 6 3) := by decide
theorem test_decode_mod : decode 0b10100100 0b00000110 0b00000011 = .ok (.mod 6 3) := by decide
theorem test_decode_cmp : decode 0b10100111 0b00000110 0b00000011 = .ok (.cmp 6 3) := by decide
theorem test_decode_and : decode 0b10101000 0b00000110 0b00000011 = .ok (.and 6 3) := by decide
theorem test_decode_or : decode 0b10101010 0b00000110 0b00000011 = .ok (.or 6 3) := by decide
theorem test_decode_xor : decode 0b10101011 0b00000110 0b00000011 = .ok (.xor 6 3) := by decide
theorem test_decode_shl : decode 0b10101100 0b00000110 0b00000011 = .ok (.shl 6 3) := by decide
theorem test_decode_shr : decode 0b10101101 0b00000110 0b00000011 = .ok (.shr 6 3) := by decide

/-- Bytes between opcodes are unknown, and 0x00 is no NOP (vectors Q7, Q18). -/
theorem test_decode_unknown : decode 0xA3 0 1 = .error (.unknownOpcode 0xA3) ∧ decode 0 0 0 = .error (.unknownOpcode 0) := by
  decide

/-- The size field (30_encoding.md R51, vector Q17). -/
theorem test_instrSize : instrSize 0xA2 = 3 ∧ instrSize 0x01 = 1 ∧ instrSize 0x47 = 2 ∧ instrSize 0xC3 = 4 := by decide

/-- A table word with its operands above it: byte 0 is the least significant. -/
theorem test_decodeTableWord : decodeTableWord 24 0x0201A0 = some (.add 1 2) ∧ decodeTableWord 8 0x0201A0 = some (.add 0 0) := by
  decide

/-! ## One step on a small state -/

/-- The reset state with registers, program counter and flags changed, and bytes at the program counter. -/
def small (regs : Vector Byte Config.numRegs) (pc : Byte) (flags : Flags) (bytes : List Byte) : State :=
  { State.reset with regs := regs, pc := pc, flags := flags, mem := Memory.writeBytes [] pc.toNat bytes }

/-- The registers of most vectors: `x[0]` and `x[1]` given, the stack pointer at its reset value. -/
def two (u v : Byte) : Vector Byte Config.numRegs := #v[u, v, 0, 0, 0, 0, 0, 0xF4]

/-- No flag set. -/
def noFlags : Flags := ⟨false, false, false⟩

/-- The state a step leads to. -/
def after (s : State) : Option State :=
  match step s with
  | .next t => some t
  | .fault _ => none
  | .refused _ => none

/-- One cell of memory changed. -/
def withCell (s : State) (addr : Nat) (v : Byte) : State := s.setMem (s.mem.write addr v)

/-- Register 0 and the program counter after a step. -/
def x0pc (s : State) : Option (Byte × Byte) := (after s).map fun t => (t.reg 0, t.pc)

/-- Vector A1. -/
theorem test_add_wraps : x0pc (small (two 200 100) 0 noFlags [0xA0, 0, 1]) = some (44, 3) := by decide

/-- Vector A52: the advance past 255 leaves the sum unwritten. -/
theorem test_add_at_253 : (after (small (two 1 1) 253 noFlags [0xA0, 0, 1])).map (fun t => (t.reg 0, t.pc, t.run)) =
    some (1, 253, .faulted (.outOfRange (.memory 256) 253)) := by decide

/-- Vector A5. -/
theorem test_sub_borrows : x0pc (small (two 5 10) 0 noFlags [0xA1, 0, 1]) = some (251, 3) := by decide

/-- Vector A34. -/
theorem test_sub_self : x0pc (small (two 77 0) 0 noFlags [0xA1, 0, 0]) = some (0, 3) := by decide

/-- Vector A11. -/
theorem test_mul_low_half : x0pc (small (two 255 255) 0 noFlags [0xA2, 0, 1]) = some (1, 3) := by decide

/-- Vector A35. -/
theorem test_mul_self : x0pc (small (two 17 0) 0 noFlags [0xA2, 0, 0]) = some (33, 3) := by decide

/-- Vector A13. -/
theorem test_and_bits : x0pc (small (two 0xCC 0xAA) 0 noFlags [0xA8, 0, 1]) = some (0x88, 3) := by decide

/-- Vector A36. -/
theorem test_and_self : x0pc (small (two 77 0) 0 noFlags [0xA8, 0, 0]) = some (77, 3) := by decide

/-- Vector A14. -/
theorem test_or_bits : x0pc (small (two 0xCC 0xAA) 0 noFlags [0xAA, 0, 1]) = some (0xEE, 3) := by decide

/-- Vector A37. -/
theorem test_or_self : x0pc (small (two 77 0) 0 noFlags [0xAA, 0, 0]) = some (77, 3) := by decide

/-- Vector A15. -/
theorem test_xor_bits : x0pc (small (two 0xCC 0xAA) 0 noFlags [0xAB, 0, 1]) = some (0x66, 3) := by decide

/-- Vector A38. -/
theorem test_xor_self : x0pc (small (two 77 0) 0 noFlags [0xAB, 0, 0]) = some (0, 3) := by decide

/-- Vector A46: the byte after a NOT is not checked. -/
theorem test_not_ignores_b : (after (small #v[0, 0, 0, 0, 0xA5, 0, 0, 0xF4] 0 noFlags [0x69, 4, 0xFF])).map
    (fun t => (t.reg 4, t.pc)) = some (0x5A, 2) := by decide

/-- Vector A53: a two-byte instruction at 253 completes. -/
theorem test_not_at_253 : x0pc (small (two 0x0F 0) 253 noFlags [0x69, 0, 0]) = some (0xF0, 255) := by decide

/-- Vector A16. -/
theorem test_shl_top_bit : x0pc (small (two 0x81 1) 0 noFlags [0xAC, 0, 1]) = some (2, 3) := by decide

/-- Vector A20. -/
theorem test_shl_count_255 : x0pc (small (two 0xFF 255) 0 noFlags [0xAC, 0, 1]) = some (0, 3) := by decide

/-- Vector A22. -/
theorem test_shr_zero_fill : x0pc (small (two 0x81 1) 0 noFlags [0xAD, 0, 1]) = some (0x40, 3) := by decide

/-- Vector A25. -/
theorem test_shr_count_9 : x0pc (small (two 0xFF 9) 0 noFlags [0xAD, 0, 1]) = some (0, 3) := by decide

/-- Vector A31. -/
theorem test_mod_remainder : x0pc (small (two 255 16) 0 noFlags [0xA4, 0, 1]) = some (15, 3) := by decide

/-- Vector A51: modulo by zero outranks the program-counter overflow. -/
theorem test_mod_by_zero : (after (small (two 5 0) 253 noFlags [0xA4, 0, 1])).map (fun t => (t.reg 0, t.pc, t.run)) =
    some (5, 253, .faulted (.moduloByZero 253)) := by decide

/-- Vector M3: LDI moves the stack pointer. -/
theorem test_ldi_r7 : (after (small (two 0 0) 0 noFlags [0x82, 7, 0x80])).map (fun t => (t.sp, t.pc)) = some (0x80, 3) := by
  decide

/-- Vector M4: an illegal destination. -/
theorem test_ldi_illegal : (after (small (two 0 0) 0 noFlags [0x82, 8, 5])) =
    some { small (two 0 0) 0 noFlags [0x82, 8, 5] with run := .faulted (.outOfRange (.register 8) 0) } := by decide

/-- Vector M8: the stack pointer printed. -/
theorem test_prn_sp : (after (small (two 0 0) 0 noFlags [0x47, 7])).map (fun t => (t.out, t.pc)) = some ([244], 2) := by decide

/-- Vector M10: nothing is printed by a faulting PRN. -/
theorem test_prn_illegal : (after (small (two 0 0) 0 noFlags [0x47, 8])).map (fun t => (t.out, t.run)) =
    some ([], .faulted (.outOfRange (.register 8) 0)) := by decide

/-- Vector M12: PUSH R7 pushes the decremented stack pointer. -/
theorem test_push_r7 : (after (small (two 0 0) 0 noFlags [0x45, 7])).map (fun t => (t.sp, t.mem.read 0xF3, t.pc)) =
    some (0xF3, 0xF3, 2) := by decide

/-- Vector M13: the stack pointer wraps down. -/
theorem test_push_wraps : (after (small #v[0xAB, 0, 0, 0, 0, 0, 0, 0] 0x10 noFlags [0x45, 0])).map
    (fun t => (t.sp, t.mem.read 0xFF, t.pc)) = some (0xFF, 0xAB, 0x12) := by decide

/-- Vector M17: POP R7 leaves the popped byte plus one. -/
theorem test_pop_r7 : (after (withCell (small (two 0 0) 0 noFlags [0x46, 7]) 0xF4 0x20)).map (fun t => (t.sp, t.pc)) =
    some (0x21, 2) := by decide

/-- Vector M19: the stack pointer wraps up. -/
theorem test_pop_wraps : (after (withCell (small #v[0, 0, 0, 0, 0, 0, 0, 0xFF] 0x10 noFlags [0x46, 0]) 0xFF 0x5A)).map
    (fun t => (t.reg 0, t.sp, t.pc)) = some (0x5A, 0, 0x12) := by decide

/-- Table of S3: 0 against 255 is less, unsigned. -/
theorem test_cmp_unsigned : (after (small (two 0 255) 0 noFlags [0xA7, 0, 1])).map (fun t => (t.flags, t.pc)) =
    some (⟨true, false, false⟩, 3) := by decide

/-- Vector C1: old flags are replaced. -/
theorem test_cmp_same : (after (small (two 9 0) 0 ⟨true, false, false⟩ [0xA7, 0, 0])).map (fun t => t.flags) =
    some ⟨false, false, true⟩ := by decide

/-- Vector C6: a jump to 255 completes. -/
theorem test_jmp_to_255 : (after (small #v[0, 0, 0xFF, 0, 0, 0, 0, 0xF4] 0 noFlags [0x54, 2])).map (fun t => (t.pc, t.run)) =
    some (0xFF, .running) := by decide

/-- Vector C8: an illegal operand. -/
theorem test_jmp_illegal : (after (small (two 0 0) 0 noFlags [0x54, 8])).map (fun t => (t.pc, t.run)) =
    some (0, .faulted (.outOfRange (.register 8) 0)) := by decide

/-- The program counter after a conditional jump at 0 to `x[2] = 0x20`, one entry per row of the table of section 2.3:
no flag, L, G, E. -/
def jumps (op : Byte) : List (Option Byte) :=
  [noFlags, ⟨true, false, false⟩, ⟨false, true, false⟩, ⟨false, false, true⟩].map fun f =>
    (after (small #v[0, 0, 0x20, 0, 0, 0, 0, 0xF4] 0 f [op, 2])).map fun t => t.pc

/-- Section 2.3, column JEQ. -/
theorem test_jeq : jumps 0x55 = [some 2, some 2, some 2, some 0x20] := by decide

/-- Vector C9: a jump not taken does not check its operand. -/
theorem test_jeq_unchecked : (after (small (two 0 0) 0 noFlags [0x55, 0xFF])).map (fun t => (t.pc, t.run)) = some (2, .running) := by
  decide

/-- Section 2.3, column JNE. -/
theorem test_jne : jumps 0x56 = [some 0x20, some 0x20, some 0x20, some 2] := by decide

/-- Vector C10: a jump taken checks its operand. -/
theorem test_jne_checked : (after (small (two 0 0) 0 noFlags [0x56, 0xFF])).map (fun t => (t.pc, t.run)) =
    some (0, .faulted (.outOfRange (.register 255) 0)) := by decide

/-- Section 2.3, column JGE. -/
theorem test_jge : jumps 0x5A = [some 2, some 2, some 0x20, some 0x20] := by decide

/-- Section 2.3, column JGT. -/
theorem test_jgt : jumps 0x57 = [some 2, some 2, some 0x20, some 2] := by decide

/-- Section 2.3, column JLE. -/
theorem test_jle : jumps 0x59 = [some 2, some 0x20, some 2, some 0x20] := by decide

/-- Section 2.3, column JLT: the inverted test. -/
theorem test_jlt : jumps 0x58 = [some 0x20, some 2, some 0x20, some 0x20] := by decide

/-- Vector C13: CALL R7 jumps to the decremented stack pointer. -/
theorem test_call_r7 : (after (small (two 0 0) 0 noFlags [0x50, 7])).map (fun t => (t.sp, t.mem.read 0xF3, t.pc)) =
    some (0xF3, 2, 0xF3) := by decide

/-- Vector C15: a CALL that overwrites its own opcode executes as fetched. -/
theorem test_call_over_itself : (after (small #v[0x40, 0, 0, 0, 0, 0, 0, 0x11] 0x10 noFlags [0x50, 0])).map
    (fun t => (t.sp, t.mem.read 0x10, t.pc)) = some (0x10, 0x12, 0x40) := by decide

/-- Vector C16. -/
theorem test_ret : (after (withCell (small #v[0, 0, 0, 0, 0, 0, 0, 0xF3] 0x80 noFlags [0x11]) 0xF3 0x22)).map
    (fun t => (t.pc, t.sp)) = some (0x22, 0xF4) := by decide

/-- Vector C17: the stack pointer wraps up. -/
theorem test_ret_wraps : (after (withCell (small #v[0, 0, 0, 0, 0, 0, 0, 0xFF] 0x80 noFlags [0x11]) 0xFF 0x22)).map
    (fun t => (t.pc, t.sp)) = some (0x22, 0) := by decide

/-- Vector C20: the last address at which HLT works; the program counter stays. -/
theorem test_hlt_at_253 : (after (small (two 0 0) 253 noFlags [0x01])).map (fun t => (t.pc, t.run)) = some (253, .halted) := by
  decide

/-- Vector Q1: no HLT at 254. -/
theorem test_hlt_at_254 : (after (small (two 0 0) 254 noFlags [0x01])).map (fun t => (t.pc, t.run)) =
    some (254, .faulted (.outOfRange (.memory 256) 254)) := by decide

/-! ## The sequencer, the host and the ports -/

/-- The run state and program counter after a step under a policy. -/
def runPc (p : UnknownOpcodePolicy) (s : State) : Option (RunState × Byte) :=
  match stepWith ⟨opc, p⟩ s with
  | .next t => some (t.run, t.pc)
  | .fault _ => none
  | .refused _ => none

/-- Vector Q5: an unknown opcode under the strict policy. -/
theorem test_unknown_strict : runPc .strict (small (two 0 0) 10 noFlags [0xC3, 0xFF, 0xFF]) =
    some (.faulted (.unknownOpcode 10 0xC3), 10) := by decide

/-- Vectors Q6, Q8 and Q10: an unknown opcode under the permissive policy. -/
theorem test_unknown_permissive : runPc .permissive (small (two 0 0) 10 noFlags [0xC3, 0xFF, 0xFF]) = some (.running, 14) ∧
    runPc .permissive (small (two 0 0) 3 noFlags [0]) = some (.running, 4) ∧
    runPc .permissive (small (two 0 0) 0 noFlags [0x83, 0, 0]) = some (.running, 3) := by decide

/-- Vectors Q11 and Q12: the permissive advance past 255. -/
theorem test_unknown_permissive_overflow :
    runPc .permissive (small (two 0 0) 252 noFlags [0xC3]) = some (.faulted (.outOfRange (.memory 256) 252), 252) ∧
    runPc .permissive (small (two 0 0) 253 noFlags [0xC3]) = some (.faulted (.outOfRange (.memory 257) 253), 253) := by decide

/-- Vector Q3: the fetch outranks the decoder. -/
theorem test_fetch_outranks_decode : runPc .strict (small (two 0 0) 254 noFlags [0]) =
    some (.faulted (.outOfRange (.memory 256) 254), 254) := by decide

/-- Vector Q15: a halted machine fetches nothing. -/
theorem test_halted_stays : after ((small (two 0 0) 11 noFlags [0x47, 0]).setRun .halted) =
    some ((small (two 0 0) 11 noFlags [0x47, 0]).setRun .halted) := by decide

/-- Vector Z2: an image loaded after reset. -/
theorem test_load : Session.withCore true (loadImage [0x82, 0, 8, 1] State.reset) =
    .next ⟨{ State.reset with mem := [(0, 0x82), (2, 8), (3, 1)] }, true⟩ := rfl

/-- A table word placed in the reset state is what the next step runs: LDI R3,9 (42_data_stack.md R110). -/
theorem test_withFetchWord : (after (State.reset.withFetchWord 24 0x090382)).map (fun t => (t.reg 3, t.pc)) = some (9, 3) := by
  decide

/-- The fault code and the offending value of a report (60_exceptions.md R145, 70_reset_and_hazards.md R182). -/
theorem test_ports : (State.reset.setRun (.faulted (.outOfRange (.memory 257) 253))).faultCode = 3 ∧
    (State.reset.setRun (.faulted (.outOfRange (.memory 257) 253))).faultInfo = some 257 ∧
    State.reset.faultCode = 0 := by decide

/-- The value a PRN printed, on the output port. -/
theorem test_outPort : outPort State.reset (State.reset.output 72) = some 72 ∧ outPort State.reset State.reset = none := by
  decide

/-! ## Witnesses: the hypotheses of the statements are met

Each is named after its statement. The clauses of an instruction rule are met at the boundary of each: a register byte of
8 or 7, the program counter at 252 or 253, a divisor of 0 or 1. -/

/-- An opcode map other than the default, with HLT at 0x02. -/
def otherOpcodes : OpcodeMap
  | .hlt => 0x02
  | o => opc o

theorem witness_DecodeInvertsEncode : otherOpcodes.Legal :=
  ⟨by intro o o'; cases o <;> cases o' <;> decide, by intro o; cases o <;> decide⟩

theorem witness_DecodeMatchesWholeOpcodeByte :
    (∃ o, opc o = 0xAD) ∧ decodeWith opc 0xAD 7 0 = .ok (.shr 7 0) ∧ decodeWith opc 0xAE 7 0 = .error (.unknownOpcode 0xAE) :=
  ⟨⟨.shr, rfl⟩, by decide, by decide⟩

/-- The configurations of the two policies. -/
def config (p : UnknownOpcodePolicy) : Config := ⟨opc, p⟩

/-- The last address an instruction can be fetched at, with an instruction there. -/
def atLast (bytes : List Byte) : State := small (two 1 1) 253 noFlags bytes

theorem witness_StepRunsDecodedInstruction :
    (atLast [0x45, 0, 0]).run = .running ∧ (atLast [0x45, 0, 0]).pc.toNat ≤ 253 ∧
      decodedAt opc (atLast [0x45, 0, 0]) = .ok (.push 0) ∧
      decodedAt (config .strict).opc (atLast [0x45, 0, 0]) = .ok (.push 0) := by decide

theorem witness_EndedMachineNeverChanges : (State.reset.setRun .halted).run ≠ .running ∧
    (State.reset.setRun (.faulted (.moduloByZero 6))).run ≠ .running := by decide

theorem witness_FetchFaultsAtTopOfMemory : (State.reset.setPc 254).run = .running ∧ 254 ≤ (State.reset.setPc 254).pc.toNat ∧
    254 ≤ (State.reset.setPc 255).pc.toNat := by decide

theorem witness_StrictUnknownOpcodeFaults : (config .strict).unknownOpcodePolicy = .strict ∧
    (State.reset.setPc 253).run = .running ∧ (State.reset.setPc 253).pc.toNat ≤ 253 ∧
    ∀ o, (config .strict).opc o ≠ (State.reset.setPc 253).mem.read (State.reset.setPc 253).pc.toNat :=
  ⟨rfl, rfl, by decide, by intro o; cases o <;> decide⟩

theorem witness_PermissiveUnknownOpcodeOnlyAdvances : (config .permissive).unknownOpcodePolicy = .permissive ∧
    (∀ o, opc o ≠ (small (two 0 0) 251 noFlags [0xC3]).mem.read 251) ∧ 251 + ((0xC3 : Byte).toNat / 64 + 1) ≤ 255 ∧
    (∀ o, opc o ≠ (small (two 0 0) 252 noFlags [0xC3]).mem.read 252) ∧ 255 < 252 + ((0xC3 : Byte).toNat / 64 + 1) :=
  ⟨rfl, by intro o; cases o <;> decide, by decide, by intro o; cases o <;> decide, by decide⟩

theorem witness_FirstFaultInPriorityOrder :
    firstFault (config .strict) (State.reset.setPc 255) = some (.outOfRange (.memory 256) 255) ∧
    firstFault (config .strict) (State.reset.setPc 254) = some (.outOfRange (.memory 256) 254) ∧
    firstFault (config .strict) (State.reset.setPc 253) = some (.unknownOpcode 253 0) ∧
    firstFault (config .strict) (atLast [0xA4, 8, 9]) = some (.outOfRange (.register 8) 253) ∧
    firstFault (config .strict) (atLast [0xA4, 7, 9]) = some (.outOfRange (.register 9) 253) ∧
    firstFault (config .strict) (atLast [0xA4, 7, 6]) = some (.moduloByZero 253) ∧
    firstFault (config .strict) (atLast [0xA4, 7, 1]) = some (.outOfRange (.memory 256) 253) ∧
    firstFault (config .strict) (atLast [0x01]) = none := by decide

theorem witness_FaultingStepChangesOnlyRunState : ∃ t r, (atLast [0xA4, 0, 6]).run = .running ∧
    stepWith (config .strict) (atLast [0xA4, 0, 6]) = .next t ∧ t.run = .faulted r :=
  ⟨_, _, rfl, rfl, rfl⟩

theorem witness_HaltedOnlyByHltFaultedOnlyByFault : ∃ t, (atLast [0x01]).run = .running ∧
    stepWith (config .strict) (atLast [0x01]) = .next t ∧ t.run = .halted :=
  ⟨_, rfl, rfl, rfl⟩

theorem witness_UnsupportedAluOpNeverRaised : ∃ t, (atLast [0x01]).run ≠ .faulted .unsupportedAluOp ∧
    stepWith (config .strict) (atLast [0x01]) = .next t :=
  ⟨_, by decide, rfl⟩

theorem witness_FlagsStayExclusive : ∃ t, (small (two 1 2) 0 noFlags [0xA7, 0, 1]).flags.Exclusive ∧
    stepWith (config .strict) (small (two 1 2) 0 noFlags [0xA7, 0, 1]) = .next t ∧ t.flags = ⟨true, false, false⟩ :=
  ⟨_, .inl rfl, rfl, rfl⟩

theorem witness_OneFlagStaysSet : ∃ t, (small (two 2 1) 0 ⟨true, false, false⟩ [0xA7, 0, 1]).flags.ExactlyOne ∧
    stepWith (config .strict) (small (two 2 1) 0 ⟨true, false, false⟩ [0xA7, 0, 1]) = .next t ∧
    t.flags = ⟨false, true, false⟩ :=
  ⟨_, .inl rfl, rfl, rfl⟩

theorem witness_MemoryStaysCanonical : ∃ t, (atLast [0x45, 0, 0]).MemoryCanonical ∧
    stepWith (config .strict) (atLast [0x45, 0, 0]) = .next t ∧ t.mem.read 0xF3 = 1 :=
  ⟨_, by unfold State.MemoryCanonical; decide, rfl, rfl⟩

theorem witness_OnlyCompareWritesFlags : ∃ t, stepWith (config .strict) (small (two 1 2) 0 noFlags [0xA7, 0, 1]) = .next t ∧
    t.flags ≠ (small (two 1 2) 0 noFlags [0xA7, 0, 1]).flags :=
  ⟨_, rfl, by decide⟩

theorem witness_OnlyConditionalJumpsReadFlags : ∃ t, jumpCondition noFlags (.cmp 7 0) = none ∧
    exec (.cmp 7 0) State.reset = .next t ∧ t.flags = ⟨false, true, false⟩ :=
  ⟨_, rfl, rfl, rfl⟩

theorem witness_OutputGrowsOnlyByPrint : ∃ t, stepWith (config .strict) (atLast [0x47, 7, 0]) = .next t ∧
    t.out ≠ (atLast [0x47, 7, 0]).out :=
  ⟨_, rfl, by decide⟩

theorem witness_OnlyPushAndCallWriteMemory : ∃ t, stepWith (config .strict) (atLast [0x45, 0, 0]) = .next t ∧
    t.mem.read 0xF3 ≠ (atLast [0x45, 0, 0]).mem.read 0xF3 :=
  ⟨_, rfl, by decide⟩

/-- PUSH R0 at 0x10 with the stack pointer just above the opcode (13H, vector M15), the first and the second operand byte of
the next instruction. -/
def pushOver (sp : Byte) : State := small #v[1, 0, 0, 0, 0, 0, 0, sp] 0x10 noFlags [0x45, 0, 0x47]

theorem witness_PushedByteIsFetchedNext : (pushOver 0x13).MemoryCanonical ∧ (pushOver 0x13).run = .running ∧
    (pushOver 0x13).pc.toNat ≤ 251 ∧ namesRegister 0 ∧ decodedAt opc (pushOver 0x13) = .ok (.push 0) ∧
    ((pushOver 0x13).sp.toNat + 255) % 256 = 0x12 + 0 ∧ ((pushOver 0x14).sp.toNat + 255) % 256 = 0x12 + 1 ∧
    ((pushOver 0x15).sp.toNat + 255) % 256 = 0x12 + 2 := by unfold State.MemoryCanonical; decide

theorem witness_EndedRunStaysEnded : ∃ t, core.run 1 (atLast [0x01]) = .next t ∧ t.run ≠ .running :=
  ⟨_, rfl, by decide⟩

theorem witness_LoadWritesImageFromZero : State.reset.MemoryCanonical ∧ (List.replicate 256 (0xFF : Byte)).length ≤ 256 ∧
    256 < (List.replicate 257 (0xFF : Byte)).length ∧ 0 < (List.replicate 256 (0xFF : Byte)).length :=
  ⟨rfl, by rw [List.length_replicate], by rw [List.length_replicate]; decide, by rw [List.length_replicate]; decide⟩

theorem witness_LoadWindowIsBeforeFirstStep : Session.start.fresh = true ∧ (⟨State.reset, false⟩ : Session).fresh = false ∧
    (List.replicate 256 (0xFF : Byte)).length ≤ 256 :=
  ⟨rfl, rfl, by rw [List.length_replicate]⟩

/-- The four clauses of AddRule, SubRule, MulRule, AndRule, OrRule, XorRule, ShlRule, ShrRule and CmpRule: operand a
illegal, operand b illegal, both legal at 253, both legal at 252. -/
theorem witness_two_register_rules : ¬ namesRegister 8 ∧ (namesRegister 7 ∧ ¬ namesRegister 8) ∧
    (namesRegister 7 ∧ namesRegister 7 ∧ 255 < (State.reset.setPc 253).pc.toNat + 3) ∧
    (namesRegister 7 ∧ namesRegister 0 ∧ (State.reset.setPc 252).pc.toNat + 3 ≤ 255) := by decide

/-- The clauses of ModRule beyond those of the other two-register rules: divisor 0, divisor not 0 at 253 and at 252. -/
theorem witness_ModRule : (small (two 5 0) 252 noFlags []).reg ⟨(1 : Byte).toNat, by decide⟩ = 0 ∧
    ((small (two 5 1) 253 noFlags []).reg ⟨(1 : Byte).toNat, by decide⟩ ≠ 0 ∧ 255 < 253 + 3) ∧
    ((small (two 5 1) 252 noFlags []).reg ⟨(1 : Byte).toNat, by decide⟩ ≠ 0 ∧ 252 + 3 ≤ 255) := by decide

/-- The clauses of LdiRule: destination illegal, legal at 253, legal at 252. -/
theorem witness_LdiRule : ¬ namesRegister 8 ∧ (namesRegister 7 ∧ 255 < (State.reset.setPc 253).pc.toNat + 3) ∧
    (namesRegister 7 ∧ (State.reset.setPc 252).pc.toNat + 3 ≤ 255) := by decide

/-- The clauses of NotRule, PrnRule, PushRule, PopRule and CallRule: operand illegal, operand legal at 253; for POP a
destination that is not and that is register 7; for PUSH and CALL a canonical memory. -/
theorem witness_one_register_rules : ¬ namesRegister 8 ∧ (namesRegister 7 ∧ (State.reset.setPc 253).pc.toNat ≤ 253) ∧
    ((6 : Byte).toNat ≠ 7 ∧ (7 : Byte).toNat = 7) ∧ (State.reset.setPc 253).MemoryCanonical :=
  ⟨by decide, by decide, by decide, rfl⟩

/-- The clauses of JmpRule. -/
theorem witness_JmpRule : ¬ namesRegister 8 ∧ namesRegister 7 := by decide

/-- The clauses of JeqRule, JneRule, JgeRule, JgtRule, JleRule and JltRule: a state in which each jump is taken and one in
which it is not, the operand illegal and legal, the program counter at 253. -/
theorem witness_conditional_jump_rules :
    (condJeq ⟨false, false, true⟩ = true ∧ condJeq noFlags = false) ∧
    (condJne noFlags = true ∧ condJne ⟨false, false, true⟩ = false) ∧
    (condJge ⟨false, true, false⟩ = true ∧ condJge ⟨true, false, false⟩ = false) ∧
    (condJgt ⟨false, true, false⟩ = true ∧ condJgt ⟨false, false, true⟩ = false) ∧
    (condJle ⟨true, false, false⟩ = true ∧ condJle ⟨false, true, false⟩ = false) ∧
    (condJlt noFlags = true ∧ condJlt ⟨true, false, false⟩ = false) ∧
    ¬ namesRegister 8 ∧ namesRegister 7 ∧ (State.reset.setPc 253).pc.toNat ≤ 253 := by decide

theorem witness_RegisterInstructionFrame : ∃ t, Instr.add 7 0 ∈
    [Instr.add 7 0, .sub 7 0, .mul 7 0, .mod 7 0, .and 7 0, .or 7 0, .xor 7 0, .shl 7 0, .shr 7 0, .not 7, .ldi 7 0] ∧
    exec (.add 7 0) (State.reset.setPc 252) = .next t :=
  ⟨_, by decide, rfl⟩

theorem witness_RegisterPreservingFrame : ∃ t, Instr.prn 7 ∈
    [Instr.cmp 7 0, .prn 7, .jmp 7, .jeq 7, .jne 7, .jge 7, .jgt 7, .jle 7, .jlt 7, .hlt] ∧
    exec (.prn 7) (State.reset.setPc 253) = .next t :=
  ⟨_, by decide, rfl⟩

theorem witness_PushCallFrame : (∃ t, exec (.push 7) (State.reset.setPc 253) = .next t) ∧
    (∃ t, exec (.call 7) (State.reset.setPc 253) = .next t) ∧ Instr.call 7 ∈ [Instr.push 7, .call 7] :=
  ⟨⟨_, rfl⟩, ⟨_, rfl⟩, by decide⟩

theorem witness_PopRetFrame : (∃ t, exec (.pop 7) (State.reset.setPc 253) = .next t) ∧ ∃ t, exec .ret State.reset = .next t :=
  ⟨⟨_, rfl⟩, ⟨_, rfl⟩⟩

/-- Two pushes and two pops from a stack pointer of 1, across the wrap. -/
theorem witness_StackIsLastInFirstOut : (small #v[5, 6, 0, 0, 0, 0, 0, 1] 0 noFlags []).MemoryCanonical ∧
    (253 : Byte).toNat ≤ 253 ∧ (7 : RegIndex) ∉ ([0, 1] : List RegIndex) ∧ (7 : RegIndex) ∉ ([2] : List RegIndex) ∧
    (3 : RegIndex) ≠ 7 ∧ ([0, 1] : List RegIndex).length ≤ 256 ∧
    ([2] : List RegIndex).length + 1 ≤ ([0, 1] : List RegIndex).length ∧
    ∃ t, execAllAt 253 [.push 0, .push 1, .pop 2, .pop 3] (small #v[5, 6, 0, 0, 0, 0, 0, 1] 0 noFlags []) = some t ∧
      t.reg 2 = 6 ∧ t.reg 3 = 5 ∧ t.sp = 1 :=
  ⟨rfl, by decide, by decide, by decide, by decide, by decide, by decide, _, rfl, rfl, rfl, rfl⟩

/-- A CALL at 253 whose return address and stack pointer nothing touched. -/
theorem witness_ReturnFollowsCall : ∃ t u : State, namesRegister 1 ∧ (State.reset.setPc 253).MemoryCanonical ∧
    (State.reset.setPc 253).pc.toNat ≤ 253 ∧ exec (.call 1) (State.reset.setPc 253) = .next t ∧ u.sp = t.sp ∧
    u.mem.read u.sp.toNat = t.mem.read t.sp.toNat :=
  ⟨_, _, by decide, rfl, by decide, rfl, rfl, rfl⟩

/-- A compare at 252 that completes, and a jump at 253 that reads its flags. -/
theorem witness_CompareThenConditionalJump : ∃ t u : State, namesRegister 0 ∧ namesRegister 7 ∧ namesRegister 1 ∧
    (State.reset.setPc 252).pc.toNat + 3 ≤ 255 ∧ exec (.cmp 0 7) (State.reset.setPc 252) = .next t ∧
    u.flags = t.flags ∧ u.pc.toNat ≤ 253 :=
  ⟨_, (State.reset.setPc 253).setFlags ⟨true, false, false⟩, by decide, by decide, by decide, by decide, rfl, by decide,
    by decide⟩

end Sys2Proof.Tests
end

section
/-!
PROOF. The statements on the encoding. The decoder's answer is characterised once in each direction; the default opcode
map is distinct because the exact match recovers the operation of every default byte.
-/

namespace Sys2Proof

/-! ## The default opcode map -/

/-- The exact match is a left inverse of the default opcode map (30_encoding.md R56, R63). -/
theorem opcodeOf?_opc (o : Opcode) : opcodeOf? opc (opc o) = some o := by cases o <;> rfl

/-- No two operations share a default opcode byte (30_encoding.md R64 (a)). -/
theorem opc_injective : Function.Injective opc := fun o o' h => by
  simpa [opcodeOf?_opc] using congrArg (opcodeOf? opc) h

/-- Settles O3: the bytes are distinct, and each size field is the operation's number of operand bytes. -/
theorem defaultOpcodesAreLegal : Obligations.DefaultOpcodesAreLegal := by
  refine ⟨fun _ _ h => opc_injective h, ?_, ?_, ?_⟩ <;> simp only [sizeField_opc]
  · decide
  · decide
  · decide

/-! ## What decodes, and to what -/

/-- The operand bytes take no part in the match: the operation found is the one decoded, with whatever bytes follow. -/
theorem decodeWith_of_opcodeOf? {m : OpcodeMap} {ir : Byte} {o : Opcode} (h : opcodeOf? m ir = some o) (a b : Byte) :
    decodeWith m ir a b = .ok (instrOf o a b) := by
  simp [decodeWith, h]

/-- The decoder accepts exactly what the match finds (30_encoding.md R63; 40_sequencer.md R72). -/
theorem decodeWith_eq_ok_iff {m : OpcodeMap} {ir a b : Byte} {i : Instr} :
    decodeWith m ir a b = .ok i ↔ ∃ o, opcodeOf? m ir = some o ∧ instrOf o a b = i := by
  constructor
  · intro h
    obtain ⟨o, -, hfound, hdecoded⟩ | ⟨-, hrejected⟩ := decodeWith_cases m ir a b
    · exact ⟨o, hfound, Except.ok.inj (hdecoded.symm.trans h)⟩
    · simp [hrejected] at h
  · rintro ⟨o, hfound, rfl⟩
    exact decodeWith_of_opcodeOf? hfound a b

/-- The decoder rejects exactly the bytes that match no opcode (30_encoding.md R58, R63). -/
theorem decodeWith_eq_unknownOpcode_iff {m : OpcodeMap} {ir a b : Byte} :
    decodeWith m ir a b = .error (.unknownOpcode ir) ↔ ∀ o, m o ≠ ir := by
  obtain ⟨o, hmatch, -, hdecoded⟩ | ⟨hnone, hrejected⟩ := decodeWith_cases m ir a b
  · simpa [hdecoded] using ⟨o, hmatch⟩
  · exact iff_of_true hrejected hnone

/-- The encoding of an instruction made from an operation and two bytes is a prefix of those three bytes: a format without
an operand drops it (30_encoding.md R50, R52). -/
theorem encodeWith_instrOf_prefix (m : OpcodeMap) (o : Opcode) (a b : Byte) :
    encodeWith m (instrOf o a b) <+: [m o, a, b] := by
  rw [encodeWith, opcode_instrOf, operandBytes_instrOf]
  exact (List.prefix_cons_inj _).2 (List.take_prefix _ _)

/-- Settles O4: a decoded instruction is made of the operation the opcode byte matches and of the operand bytes. -/
theorem decodeMatchesWholeOpcodeByte : Obligations.DecodeMatchesWholeOpcodeByte := by
  intro m ir a b
  refine ⟨decodeWith_eq_unknownOpcode_iff, ?_, ?_⟩
  · rintro ⟨o, hmatch⟩
    obtain ⟨o', -, -, hdecoded⟩ | ⟨hnone, -⟩ := decodeWith_cases m ir a b
    · exact ⟨_, hdecoded⟩
    · exact absurd hmatch (hnone o)
  · intro i h
    obtain ⟨o, hfound, rfl⟩ := decodeWith_eq_ok_iff.1 h
    constructor
    · exact opcodeOf?_some hfound ▸ encodeWith_instrOf_prefix m o a b
    · exact fun a' b' => ⟨instrOf o a' b', decodeWith_of_opcodeOf? hfound a' b', by simp only [opcode_instrOf]⟩

end Sys2Proof
end

section
/-!
PROOF. The statements on ADD, SUB, MUL, AND, OR, XOR, MOD and NOT. The fault order of the register operands and the
effect of a register write followed by the advance are each proved once; a two-register ALU instruction then owes only
the equation of its result.
-/

namespace Sys2Proof.Machine

/-! ## The results of the ALU, as numbers (41_alu.md R91 to R97, R100) -/

/-- A byte is its own remainder modulo 256. -/
theorem toNat_emod_256 (v : Byte) : (v.toNat : Int) % 256 = v.toNat :=
  Int.emod_eq_of_lt (Int.natCast_nonneg _) (Int.ofNat_lt.2 (byte_lt v))

theorem toNat_andResult (u v : Byte) : (andResult u v).toNat = u.toNat &&& v.toNat := BitVec.toNat_and u v

theorem toNat_orResult (u v : Byte) : (orResult u v).toNat = u.toNat ||| v.toNat := BitVec.toNat_or u v

theorem toNat_xorResult (u v : Byte) : (xorResult u v).toNat = u.toNat ^^^ v.toNat := BitVec.toNat_xor u v

theorem toNat_notResult (u : Byte) : (notResult u).toNat = 255 - u.toNat := by
  have complement : notResult u = ~~~u := BitVec.xor_allOnes
  rw [complement, BitVec.toNat_not]

/-- The remainder is at most the dividend, so truncation does not change it. -/
theorem toNat_modResult (u v : Byte) : (modResult u v).toNat = u.toNat % v.toNat := by
  rw [modResult, toNat_trunc8_nat]
  exact Nat.mod_eq_of_lt ((Nat.mod_le _ _).trans_lt (byte_lt u))

/-! ## Register operands, faults and the advance -/

/-- An instruction whose chain of operations raises takes that fault (60_exceptions.md R148). -/
theorem raises_of_complete {i : Instr} {s : State} {r : FaultReport} {x : Except FaultReport State}
    (hexec : exec i s = complete s x) (hx : x = .error r) : Raises i s r := by
  rw [Raises, hexec, hx]
  rfl

/-- An instruction that checks operand a, then operand b, before anything else has the register faults of the
two-register instructions (30_encoding.md R54; 60_exceptions.md R147). -/
theorem twoRegisterFaults_of_checks {mk : Byte → Byte → Instr}
    {rest : State → RegIndex → RegIndex → Except FaultReport State}
    (hexec : ∀ a b s, exec (mk a b) s = complete s (regOperand a s >>= fun i => regOperand b s >>= rest s i)) :
    TwoRegisterFaults mk := by
  refine fun a b s => ⟨fun ha => ?_, fun ha hb => ?_⟩ <;> refine raises_of_complete (hexec a b s) ?_
  · rw [regOperand_error s ha, except_error_bind]
  · rw [regOperand_ok s ha, except_ok_bind, regOperand_error s hb, except_error_bind]

/-- A register written and the program counter advanced within the address space: nothing else changes
(40_sequencer.md R75). -/
theorem advance_setReg_completes {n : Nat} {s : State} (i : RegIndex) (v : Byte) (h : s.pc.toNat + n < 256) :
    ∃ t, advance n s (s.setReg i v) = .ok t ∧ t.reg i = v ∧ SameRegistersBut i s t ∧
      t.pc.toNat = s.pc.toNat + n ∧ SameMemory s t ∧ SameFlagsRunOutput s t := by
  refine ⟨_, advance_ok _ h, by simp, fun k hk => by simp [hk], ?_, fun _ => rfl, rfl, rfl, rfl⟩
  rw [State.pc_setPc, toNat_advanced h]

/-! ## The two-register ALU instructions but MOD -/

/-- With legal operands, a two-register ALU instruction is its write and its advance (41_alu.md R90). -/
theorem aluTwo_of_legal (op : AluOp) {a b : Byte} (ha : namesRegister a) (hb : namesRegister b) (s : State) :
    aluTwo op a b s = complete s (advance 3 s
      (s.setReg ⟨a.toNat, ha⟩ (aluResult op (s.reg ⟨a.toNat, ha⟩) (s.reg ⟨b.toNat, hb⟩)))) := by
  rw [aluTwo, regOperand_ok s ha, except_ok_bind, regOperand_ok s hb, except_ok_bind]

/-- An instruction that is the shared two-register ALU operation has its rule as soon as its result is the stated number
modulo 256 (41_alu.md R90). -/
theorem twoRegisterAluRule_of_result {opByte : Byte} {mk : Byte → Byte → Instr} {op : AluOp}
    {result : Nat → Nat → Int}
    (hencode : ∀ a b, encode (mk a b) = [opByte, a, b]) (hexec : ∀ a b s, exec (mk a b) s = aluTwo op a b s)
    (hresult : ∀ u v : Byte, ((aluResult op u v).toNat : Int) = result u.toNat v.toNat % 256) :
    TwoRegisterAluRule opByte mk result := by
  refine ⟨hencode, twoRegisterFaults_of_checks hexec, fun a b ha hb s => ?_⟩
  have hlegal := (hexec a b s).trans (aluTwo_of_legal op ha hb s)
  refine ⟨fun hpc => raises_of_complete hlegal (advance_error _ (by omega)), fun hpc => ?_⟩
  obtain ⟨t, hadvance, hreg, hframe⟩ := advance_setReg_completes ⟨a.toNat, ha⟩
    (aluResult op (s.reg ⟨a.toNat, ha⟩) (s.reg ⟨b.toNat, hb⟩)) (show s.pc.toNat + 3 < 256 by omega)
  refine ⟨t, ?_, ?_, hframe⟩
  · rw [hlegal, hadvance, complete_ok]
  · rw [hreg, hresult]

/-- Settles O28: the truncated sum is the sum modulo 256. -/
theorem addRule : Obligations.AddRule :=
  twoRegisterAluRule_of_result (op := .add) (fun _ _ => rfl) (fun _ _ _ => rfl) fun _ _ => toNat_trunc8 _

/-- Settles O29: the truncated difference is the difference modulo 256, a borrow included. -/
theorem subRule : Obligations.SubRule :=
  twoRegisterAluRule_of_result (op := .sub) (fun _ _ => rfl) (fun _ _ _ => rfl) fun _ _ => toNat_trunc8 _

/-- Settles O30: the truncated product is the product modulo 256. -/
theorem mulRule : Obligations.MulRule :=
  twoRegisterAluRule_of_result (op := .mul) (fun _ _ => rfl) (fun _ _ _ => rfl) fun _ _ => toNat_trunc8 _

/-- Settles O31: the AND of two bytes is a byte, so the modulus changes nothing. -/
theorem andRule : Obligations.AndRule :=
  twoRegisterAluRule_of_result (op := .and) (fun _ _ => rfl) (fun _ _ _ => rfl) fun u v => by
    rw [aluResult, ← toNat_andResult, toNat_emod_256]

/-- Settles O32: the OR of two bytes is a byte, so the modulus changes nothing. -/
theorem orRule : Obligations.OrRule :=
  twoRegisterAluRule_of_result (op := .or) (fun _ _ => rfl) (fun _ _ _ => rfl) fun u v => by
    rw [aluResult, ← toNat_orResult, toNat_emod_256]

/-- Settles O33: the exclusive OR of two bytes is a byte, so the modulus changes nothing. -/
theorem xorRule : Obligations.XorRule :=
  twoRegisterAluRule_of_result (op := .xor) (fun _ _ => rfl) (fun _ _ _ => rfl) fun u v => by
    rw [aluResult, ← toNat_xorResult, toNat_emod_256]

/-! ## MOD -/

/-- With legal operands, MOD is the divisor check, then its write and its advance (41_alu.md R100). -/
theorem execMod_of_legal {a b : Byte} (ha : namesRegister a) (hb : namesRegister b) (s : State) :
    execMod a b s = complete s (checkDivisor (s.reg ⟨b.toNat, hb⟩) s >>= fun _ => advance 3 s
      (s.setReg ⟨a.toNat, ha⟩ (modResult (s.reg ⟨a.toNat, ha⟩) (s.reg ⟨b.toNat, hb⟩)))) := by
  rw [execMod, regOperand_ok s ha, except_ok_bind, regOperand_ok s hb, except_ok_bind]
  rfl

/-- The divisor 0 raises (41_alu.md R100). -/
theorem checkDivisor_error {v : Byte} (s : State) (h : v = 0) : checkDivisor v s = .error (.moduloByZero s.pc) :=
  if_pos h

/-- Any other divisor is accepted (41_alu.md R100). -/
theorem checkDivisor_ok {v : Byte} (s : State) (h : v ≠ 0) : checkDivisor v s = .ok () := if_neg h

/-- Settles O36: the divisor check comes between the register checks and the advance, and past it the result is the
remainder, below a divisor that is not 0. -/
theorem modRule : Obligations.ModRule := by
  refine ⟨fun _ _ => rfl, twoRegisterFaults_of_checks (fun _ _ _ => rfl), fun a b ha hb s => ?_⟩
  have hlegal : exec (.mod a b) s = _ := execMod_of_legal ha hb s
  refine ⟨fun h0 => raises_of_complete hlegal ?_, fun h0 hpc => raises_of_complete hlegal ?_, fun h0 hpc => ?_⟩
  · rw [checkDivisor_error s h0, except_error_bind]
  · rw [checkDivisor_ok s h0, except_ok_bind, advance_error _ (by omega)]
  · obtain ⟨t, hadvance, hreg, hframe⟩ := advance_setReg_completes ⟨a.toNat, ha⟩
      (modResult (s.reg ⟨a.toNat, ha⟩) (s.reg ⟨b.toNat, hb⟩)) (show s.pc.toNat + 3 < 256 by omega)
    have hdivisor : 0 < (s.reg ⟨b.toNat, hb⟩).toNat :=
      Nat.pos_of_ne_zero fun e => h0 (BitVec.eq_of_toNat_eq e)
    refine ⟨t, ?_, ?_, ?_, hframe⟩
    · rw [hlegal, checkDivisor_ok s h0, except_ok_bind, hadvance, complete_ok]
    · rw [hreg, toNat_modResult]
    · rw [hreg, toNat_modResult]
      exact Nat.mod_lt _ hdivisor

/-! ## NOT -/

/-- Settles O37: the one operand is checked, its complement written, and the program counter advanced by 2. -/
theorem notRule : Obligations.NotRule := by
  refine ⟨fun _ => rfl, fun a s => ⟨fun ha => ?_, fun ha hpc => ?_⟩⟩
  · have hexec : exec (.not a) s = complete s _ := rfl
    exact raises_of_complete hexec (by rw [regOperand_error s ha, except_error_bind])
  · obtain ⟨t, hadvance, hreg, hframe⟩ := advance_setReg_completes ⟨a.toNat, ha⟩
      (notResult (s.reg ⟨a.toNat, ha⟩)) (show s.pc.toNat + 2 < 256 by omega)
    refine ⟨t, ?_, ?_, hframe⟩
    · rw [exec, execNot, regOperand_ok s ha, except_ok_bind, aluResult, hadvance, complete_ok]
    · rw [hreg, toNat_notResult]

end Sys2Proof.Machine
end

section
/-!
PROOF. The statement on LDI (42_data_stack.md R110): the register operand is checked first, and a legal LDI is then one
register write followed by the advance.
-/

namespace Sys2Proof.Machine

/-- With a legal register operand, LDI is its write and its advance, whatever the literal (42_data_stack.md R110). -/
theorem exec_ldi_of_legal {a : Byte} (ha : namesRegister a) (imm : Byte) (s : State) :
    exec (.ldi a imm) s = complete s (advance 3 s (s.setReg ⟨a.toNat, ha⟩ imm)) := by
  rw [exec, execLdi, regOperand_ok s ha, except_ok_bind]

/-- Settles O38: the operand check raises before the advance does, and past both only the write of the literal and the
new program counter remain. -/
theorem ldiRule : Obligations.LdiRule := by
  refine ⟨fun _ _ => rfl, fun a imm s => ⟨fun ha => ?_, fun ha => ⟨fun hpc => ?_, fun hpc => ?_⟩⟩⟩
  · have hexec : exec (.ldi a imm) s = complete s _ := rfl
    exact raises_of_complete hexec (by rw [regOperand_error s ha, except_error_bind])
  · exact raises_of_complete (exec_ldi_of_legal ha imm s) (advance_error _ (by omega))
  · obtain ⟨t, hadvance, hframe⟩ := advance_setReg_completes ⟨a.toNat, ha⟩ imm
      (show s.pc.toNat + 3 < 256 by omega)
    exact ⟨t, by rw [exec_ldi_of_legal ha, hadvance, complete_ok], hframe⟩

end Sys2Proof.Machine
end

section
/-!
PROOF. The statement on JMP (43_control_compare.md R121): the jump checks its operand and then only replaces the program
counter; it does not advance, so it has no other fault.
-/

namespace Sys2Proof.Machine

/-- Settles O43: the operand check is the only fault, and a legal jump replaces the program counter alone. -/
theorem jmpRule : Obligations.JmpRule := by
  refine ⟨fun _ => rfl, fun a s => ?_⟩
  have hexec : exec (.jmp a) s = complete s (jumpTo a s) := rfl
  refine ⟨fun ha => raises_of_complete hexec (jumpTo_error s ha), fun ha => ?_⟩
  rw [hexec, jumpTo_ok s ha, complete_ok, State.setPc]

end Sys2Proof.Machine
end

section
/-!
PROOF. The statement on `UnsupportedAluOp` (60_exceptions.md R144). The operations an instruction is a chain of raise
only the other kinds, and none makes this report on its own; so no chain ends in this fault, and no step does.
-/

namespace Sys2Proof.Machine

/-- The run state does not report `UnsupportedAluOp` (60_exceptions.md R144). -/
def State.FreeOfAluFault (s : State) : Prop := s.run ≠ .faulted .unsupportedAluOp

/-- A chain of operations ends in a state free of `UnsupportedAluOp`, or raises another kind (60_exceptions.md R144). -/
def AvoidsAluFault : Except FaultReport State → Prop
  | .ok t => t.FreeOfAluFault
  | .error r => r ≠ .unsupportedAluOp

/-! ## The shared operations -/

/-- A register operand raises `OutOfRange` alone, so what uses it decides (30_encoding.md R54). -/
theorem avoidsAluFault_regOperand_bind {v : Byte} {s : State} {f : RegIndex → Except FaultReport State}
    (hf : ∀ i, AvoidsAluFault (f i)) : AvoidsAluFault (regOperand v s >>= f) := by
  obtain ⟨h, hok⟩ | ⟨-, herror⟩ := regOperand_cases v s
  · rw [hok]
    exact hf _
  · rw [herror]
    exact FaultReport.noConfusion

/-- The incrementer raises `OutOfRange` alone, and otherwise changes the program counter (40_sequencer.md R75). -/
theorem avoidsAluFault_advance {n : Nat} {s t : State} (ht : t.FreeOfAluFault) : AvoidsAluFault (advance n s t) := by
  obtain ⟨-, hok⟩ | ⟨-, herror⟩ := advance_cases n s t
  · rw [hok]
    exact ht
  · rw [herror]
    exact FaultReport.noConfusion

/-- The divisor check raises `ModuloByZero` alone (41_alu.md R100). -/
theorem avoidsAluFault_checkDivisor_bind {v : Byte} {s : State} {f : Unit → Except FaultReport State}
    (hf : AvoidsAluFault (f ())) : AvoidsAluFault (checkDivisor v s >>= f) := by
  by_cases hv : v = 0
  · rw [checkDivisor_error s hv]
    exact FaultReport.noConfusion
  · rw [checkDivisor_ok s hv]
    exact hf

/-- A jump changes the program counter, or raises `OutOfRange` (43_control_compare.md R121). -/
theorem avoidsAluFault_jumpTo {a : Byte} {s : State} (hs : s.FreeOfAluFault) : AvoidsAluFault (jumpTo a s) :=
  avoidsAluFault_regOperand_bind fun _ => hs

/-! ## Instructions and steps -/

/-- The end of an instruction: its chain's own state, or the fault entry of what the chain raised (60_exceptions.md
R148). -/
theorem freeOfAluFault_of_complete {s t : State} {x : Except FaultReport State} (h : complete s x = .next t)
    (hx : AvoidsAluFault x) : t.FreeOfAluFault := by
  obtain rfl | ⟨r, rfl, rfl⟩ := complete_eq_next h
  · exact hx
  · exact fun hrun => hx (RunState.faulted.inj hrun)

/-- The two-register ALU instructions: whatever the select, the ALU answers a value (41_alu.md R101). -/
theorem aluTwo_freeOfAluFault {op : AluOp} {a b : Byte} {s t : State} (hs : s.FreeOfAluFault)
    (h : aluTwo op a b s = .next t) : t.FreeOfAluFault :=
  freeOfAluFault_of_complete h (avoidsAluFault_regOperand_bind fun _ => avoidsAluFault_regOperand_bind fun _ =>
    avoidsAluFault_advance hs)

/-- The conditional jumps, taken or not (43_control_compare.md R122). -/
theorem condJump_freeOfAluFault {cond : Flags → Bool} {a : Byte} {s t : State} (hs : s.FreeOfAluFault)
    (h : condJump cond a s = .next t) : t.FreeOfAluFault := by
  refine freeOfAluFault_of_complete h ?_
  split
  · exact avoidsAluFault_jumpTo hs
  · exact avoidsAluFault_advance hs

/-- No instruction raises `UnsupportedAluOp` (60_exceptions.md R144). -/
theorem exec_freeOfAluFault {i : Instr} {s t : State} (hs : s.FreeOfAluFault) (h : exec i s = .next t) :
    t.FreeOfAluFault := by
  cases i with
  | hlt => exact freeOfAluFault_of_complete (s := s) (x := .ok _) h RunState.noConfusion
  | ret =>
    refine freeOfAluFault_of_complete h ?_
    rw [topOfStack_eq]
    exact hs
  | push a =>
    refine freeOfAluFault_of_complete h (avoidsAluFault_regOperand_bind fun _ => ?_)
    rw [pushByte_eq]
    exact avoidsAluFault_advance hs
  | pop a =>
    refine freeOfAluFault_of_complete h (avoidsAluFault_regOperand_bind fun _ => ?_)
    rw [topOfStack_eq]
    exact avoidsAluFault_advance hs
  | call a =>
    refine freeOfAluFault_of_complete h (avoidsAluFault_regOperand_bind fun _ => ?_)
    rw [pushByte_eq]
    exact hs
  | jmp a => exact freeOfAluFault_of_complete h (avoidsAluFault_jumpTo hs)
  | jeq a | jne a | jgt a | jlt a | jle a | jge a => exact condJump_freeOfAluFault hs h
  | prn a | not a | ldi a imm =>
    exact freeOfAluFault_of_complete h (avoidsAluFault_regOperand_bind fun _ => avoidsAluFault_advance hs)
  | cmp a b =>
    exact freeOfAluFault_of_complete h (avoidsAluFault_regOperand_bind fun _ => avoidsAluFault_regOperand_bind fun _ =>
      avoidsAluFault_advance hs)
  | mod a b =>
    exact freeOfAluFault_of_complete h (avoidsAluFault_regOperand_bind fun _ => avoidsAluFault_regOperand_bind fun _ =>
      avoidsAluFault_checkDivisor_bind (avoidsAluFault_advance hs))
  | add a b | sub a b | mul a b | and a b | or a b | xor a b | shl a b | shr a b => exact aluTwo_freeOfAluFault hs h

/-- An unknown opcode raises its own kind, or advances (40_sequencer.md R76). -/
theorem unknownOpcode_freeOfAluFault {policy : UnknownOpcodePolicy} {ir : Byte} {s t : State} (hs : s.FreeOfAluFault)
    (h : unknownOpcode policy ir s = .next t) : t.FreeOfAluFault := by
  cases policy with
  | strict => exact freeOfAluFault_of_complete (x := .error _) h FaultReport.noConfusion
  | permissive => exact freeOfAluFault_of_complete h (avoidsAluFault_advance hs)

/-- A cycle executes an instruction, meets an unknown opcode, or fails in the fetch (40_sequencer.md R70). -/
theorem runCycle_freeOfAluFault {c : Config} {s t : State} (hs : s.FreeOfAluFault) (h : runCycle c s = .next t) :
    t.FreeOfAluFault := by
  by_cases hpc : s.pc.toNat + 2 < 256
  · rw [runCycle_fetch_ok c hpc, decodeAndExecute] at h
    split at h
    · exact exec_freeOfAluFault hs h
    · exact unknownOpcode_freeOfAluFault hs h
  · rw [runCycle_fetch_error c hpc, ← complete_error] at h
    exact freeOfAluFault_of_complete (x := .error _) h FaultReport.noConfusion

/-- Settles O13: the select has no eleventh value, a cycle of the running machine does not make this report, and an
ended machine keeps the report it has. -/
theorem unsupportedAluOpNeverRaised : Obligations.UnsupportedAluOpNeverRaised := by
  refine ⟨fun op => by cases op <;> decide, fun c s t hs h => ?_⟩
  by_cases hrun : s.run = .running
  · rw [stepWith_running c hrun] at h
    exact runCycle_freeOfAluFault hs h
  · rw [stepWith_ended c hrun] at h
    exact Host.Outcome.next.inj h ▸ hs

end Sys2Proof.Machine
end

section
/-!
PROOF. The statements that decode given bytes: decoding undoes encoding because an encoding is the opcode byte of its
operation followed by the operand bytes the operation's format has.
-/

namespace Sys2Proof

/-- With two more bytes behind it, an encoding holds the three bytes the decoder reads: the opcode byte, then two from
which the operation makes the instruction again, the operands first (30_encoding.md R50, R52). -/
theorem encodeWith_append_two (m : OpcodeMap) (i : Instr) (y z : Byte) :
    ∃ a b rest, encodeWith m i ++ [y, z] = m i.opcode :: a :: b :: rest ∧ instrOf i.opcode a b = i := by
  cases i with
  | hlt | ret => exact ⟨y, z, [], rfl, rfl⟩
  | push a | pop a | prn a | call a | jmp a | jeq a | jne a | jgt a | jlt a | jle a | jge a | not a =>
    exact ⟨a, y, [z], rfl, rfl⟩
  | ldi a b | add a b | sub a b | mul a b | mod a b | cmp a b | and a b | or a b | xor a b | shl a b | shr a b =>
    exact ⟨a, b, [y, z], rfl, rfl⟩

/-- Settles O2: the opcodes of a legal map are distinct, so the match finds the operation that was encoded. -/
theorem decodeInvertsEncode : Obligations.DecodeInvertsEncode := by
  rintro m ⟨hdistinct, -⟩ i y z
  obtain ⟨a, b, rest, hbytes, hinstr⟩ := encodeWith_append_two m i y z
  rw [hbytes, decodeBytesWith, decodeWith_of_opcodeOf? (opcodeOf?_self hdistinct i.opcode), hinstr]

/-- Settles O1: nine words, each decoded as written. -/
theorem opcodeWordsDecode : Obligations.OpcodeWordsDecode := by
  unfold Obligations.OpcodeWordsDecode
  decide

end Sys2Proof
end

section
/-!
PROOF. What a completed instruction and a step can do to each item of state. The 25 effects fall into five shapes by the
item they write besides the registers and the program counter; each item of state is read off the shape once, and the
invariants of the step follow.
-/

namespace Sys2Proof.Machine

/-! ## Fields of the stack operations and of the fault entry -/

@[simp] theorem flags_takeFault (r : FaultReport) (s : State) : (takeFault r s).flags = s.flags := rfl
@[simp] theorem mem_takeFault (r : FaultReport) (s : State) : (takeFault r s).mem = s.mem := rfl
@[simp] theorem run_takeFault (r : FaultReport) (s : State) : (takeFault r s).run = .faulted r := rfl
@[simp] theorem out_takeFault (r : FaultReport) (s : State) : (takeFault r s).out = s.out := rfl

@[simp] theorem flags_decrementSp (s : State) : (decrementSp s).flags = s.flags := rfl
@[simp] theorem run_decrementSp (s : State) : (decrementSp s).run = s.run := rfl
@[simp] theorem out_decrementSp (s : State) : (decrementSp s).out = s.out := rfl

@[simp] theorem pc_incrementSp (s : State) : (incrementSp s).pc = s.pc := rfl

/-- The increment of a pop wraps from 255 to 0 (10_state.md R14). -/
theorem toNat_sp_incrementSp (s : State) : (incrementSp s).sp.toNat = (s.sp.toNat + 1) % 256 := by
  have written : (incrementSp s).sp = trunc8 ((s.sp.toNat + 1 : Nat) : Int) := State.reg_setReg_self ..
  rw [written, toNat_trunc8_nat]

theorem reg_incrementSp_ne (s : State) {k : RegIndex} (h : k ≠ Config.spIndex) : (incrementSp s).reg k = s.reg k :=
  State.reg_setReg_ne _ _ h

/-! ## The five shapes of a completed instruction -/

/-- A completed instruction by what it writes besides the registers and the program counter: the run state, the flags,
the output, a byte of memory, or nothing. -/
inductive CompletedShape (i : Instr) (s t : State) : Prop
  | halts (hi : i = .hlt) (ht : t = s.setRun .halted)
  | compares (a b : Byte) (ha : namesRegister a) (hb : namesRegister b) (hi : i = .cmp a b)
      (hpc : s.pc.toNat + 3 < 256)
      (ht : t = (s.setFlags (compareFlags (s.reg ⟨a.toNat, ha⟩) (s.reg ⟨b.toNat, hb⟩))).setPc
        (BitVec.ofNat 8 (s.pc.toNat + 3)))
  | prints (a : Byte) (ha : namesRegister a) (hi : i = .prn a)
      (ht : t = (s.output (s.reg ⟨a.toNat, ha⟩)).setPc (BitVec.ofNat 8 (s.pc.toNat + 2)))
  | pushes (a v p : Byte) (ha : namesRegister a) (hi : i = .push a ∨ i = .call a)
      (ht : t = ((decrementSp s).setMem (s.mem.write (pushAddress s).toNat v)).setPc p)
  | registersOnly (ht : t = { s with regs := t.regs, pc := t.pc })

/-- An ALU instruction writes a register and the program counter (41_alu.md R103). -/
theorem AluCompleted.registersOnly {op : AluOp} {a b : Byte} {s t : State} (h : AluCompleted op a b s t) :
    t = { s with regs := t.regs, pc := t.pc } := by
  obtain ⟨ha, hb, -, rfl⟩ := h
  rfl

/-- A conditional jump writes the program counter (43_control_compare.md R122). -/
theorem CondJumpCompleted.eq_setPc {cond : Flags → Bool} {a : Byte} {s t : State} (h : CondJumpCompleted cond a s t) :
    t = s.setPc t.pc := by
  obtain ⟨-, ha, rfl⟩ | ⟨-, -, rfl⟩ := h <;> rfl

/-- Every completed instruction has one of the five shapes. -/
theorem Completed.shape {i : Instr} {s t : State} (h : Completed i s t) : CompletedShape i s t := by
  cases i with
  | hlt => exact .halts rfl h
  | cmp a b =>
    obtain ⟨ha, hb, hpc, ht⟩ := h
    exact .compares a b ha hb rfl hpc ht
  | prn a =>
    obtain ⟨ha, -, ht⟩ := h
    exact .prints a ha rfl ht
  | push a =>
    obtain ⟨ha, -, ht⟩ := h
    exact .pushes a _ _ ha (.inl rfl) ht
  | call a =>
    obtain ⟨ha, ht⟩ := h
    exact .pushes a _ _ ha (.inr rfl) ht
  | ret =>
    obtain rfl := h
    exact .registersOnly rfl
  | jmp a =>
    obtain ⟨ha, rfl⟩ := h
    exact .registersOnly rfl
  | pop a | not a | ldi a imm =>
    obtain ⟨ha, -, rfl⟩ := h
    exact .registersOnly rfl
  | jeq a | jne a | jgt a | jlt a | jle a | jge a =>
    have ht : t = s.setPc t.pc := CondJumpCompleted.eq_setPc h
    exact .registersOnly (by rw [ht]; rfl)
  | mod a b => exact .registersOnly h.1.registersOnly
  | add a b | sub a b | mul a b | and a b | or a b | xor a b | shl a b | shr a b =>
    exact .registersOnly (AluCompleted.registersOnly h)

/-- The flags are kept, or the instruction is a CMP and they are those of its compare (43_control_compare.md R120). -/
theorem Completed.flags_eq {i : Instr} {s t : State} (h : Completed i s t) :
    t.flags = s.flags ∨ ∃ (a b : Byte) (ha : namesRegister a) (hb : namesRegister b), i = .cmp a b ∧
      s.pc.toNat + 3 < 256 ∧ t.flags = compareFlags (s.reg ⟨a.toNat, ha⟩) (s.reg ⟨b.toNat, hb⟩) := by
  cases h.shape with
  | halts _ ht | prints _ _ _ ht | pushes _ _ _ _ _ ht => exact .inl (by simp [ht])
  | compares a b ha hb hi hpc ht => exact .inr ⟨a, b, ha, hb, hi, hpc, by simp [ht]⟩
  | registersOnly ht => exact .inl (by rw [ht])

/-- The output is kept, or the instruction is a PRN and its value is appended (42_data_stack.md R111). -/
theorem Completed.out_eq {i : Instr} {s t : State} (h : Completed i s t) :
    t.out = s.out ∨ ∃ (a : Byte) (ha : namesRegister a), i = .prn a ∧ t.out = s.out ++ [s.reg ⟨a.toNat, ha⟩] := by
  cases h.shape with
  | halts _ ht | compares _ _ _ _ _ _ ht | pushes _ _ _ _ _ ht => exact .inl (by simp [ht])
  | prints a ha hi ht => exact .inr ⟨a, ha, hi, by simp [ht]⟩
  | registersOnly ht => exact .inl (by rw [ht])

/-- The memory is kept, or the instruction is a PUSH or a CALL and one byte is written, at the decremented stack pointer
(42_data_stack.md R112; 43_control_compare.md R130). -/
theorem Completed.mem_eq {i : Instr} {s t : State} (h : Completed i s t) :
    t.mem = s.mem ∨ ∃ a v, namesRegister a ∧ (i = .push a ∨ i = .call a) ∧
      t.mem = s.mem.write (pushAddress s).toNat v := by
  cases h.shape with
  | halts _ ht | compares _ _ _ _ _ _ ht | prints _ _ _ ht => exact .inl (by simp [ht])
  | pushes a v _ ha hi ht => exact .inr ⟨a, v, ha, hi, by simp [ht]⟩
  | registersOnly ht => exact .inl (by rw [ht])

/-- The run state is kept, or the instruction is HLT and the machine has halted (43_control_compare.md R132). -/
theorem Completed.run_eq {i : Instr} {s t : State} (h : Completed i s t) :
    t.run = s.run ∨ i = .hlt ∧ t.run = .halted := by
  cases h.shape with
  | compares _ _ _ _ _ _ ht | prints _ _ _ ht | pushes _ _ _ _ _ ht => exact .inl (by simp [ht])
  | halts hi ht => exact .inr ⟨hi, by simp [ht]⟩
  | registersOnly ht => exact .inl (by rw [ht])

/-! ## Everything a step can do -/

/-- Every instruction answers a next state. -/
theorem exec_is_next (i : Instr) (s : State) : ∃ t, exec i s = .next t := by
  cases i with
  | hlt => exact ⟨_, rfl⟩
  | _ => exact complete_is_next _ _

/-- Passing an unknown opcode answers a next state. -/
theorem unknownOpcode_is_next (policy : UnknownOpcodePolicy) (ir : Byte) (s : State) :
    ∃ t, unknownOpcode policy ir s = .next t := by
  cases policy with
  | strict => exact ⟨_, rfl⟩
  | permissive => exact complete_is_next _ _

/-- The bytes at the program counter decode, or the opcode byte is none of the map's (30_encoding.md R58, R63). -/
theorem decodedAt_cases (m : OpcodeMap) (s : State) :
    (∃ i, decodedAt m s = .ok i) ∨
      ((∀ o, m o ≠ s.mem.read s.pc.toNat) ∧
        decodedAt m s = .error (.unknownOpcode (s.mem.read s.pc.toNat))) := by
  obtain ⟨o, -, -, hdecoded⟩ | hunknown := decodeWith_cases m (s.mem.read s.pc.toNat) (s.mem.read (s.pc.toNat + 1))
    (s.mem.read (s.pc.toNat + 2))
  · exact .inl ⟨_, hdecoded⟩
  · exact .inr hunknown

/-- A step that decodes an instruction is that instruction (40_sequencer.md R72, R73). -/
theorem stepWith_of_decoded {c : Config} {s : State} {i : Instr} (hrun : s.run = .running) (hpc : s.pc.toNat + 2 < 256)
    (hi : decodedAt c.opc s = .ok i) : stepWith c s = exec i s := by
  rw [decodedAt] at hi
  rw [stepWith_running c hrun, runCycle_fetch_ok c hpc, decodeAndExecute, hi]

/-- A step that meets an unknown opcode goes by the policy (40_sequencer.md R76). -/
theorem stepWith_of_unknown {c : Config} {s : State} (hrun : s.run = .running) (hpc : s.pc.toNat + 2 < 256)
    (hunknown : ∀ o, c.opc o ≠ s.mem.read s.pc.toNat) :
    stepWith c s = unknownOpcode c.unknownOpcodePolicy (s.mem.read s.pc.toNat) s := by
  rw [stepWith_running c hrun, runCycle_fetch_ok c hpc, decodeAndExecute, decodeWith_eq_unknownOpcode_iff.2 hunknown]

/-- A step whose fetch fails takes that fault (40_sequencer.md R71). -/
theorem stepWith_of_fetch_error {c : Config} {s : State} (hrun : s.run = .running) (hpc : ¬ s.pc.toNat + 2 < 256) :
    stepWith c s = .next (takeFault (.outOfRange (.memory 256) s.pc) s) := by
  rw [stepWith_running c hrun, runCycle_fetch_error c hpc]

/-- A step is an instruction, the passing of an unknown opcode, a fault entry, or nothing, and each answers a next
state. -/
theorem stepWith_is_next (c : Config) (s : State) : ∃ t, stepWith c s = .next t := by
  by_cases hrun : s.run = .running
  · by_cases hpc : s.pc.toNat + 2 < 256
    · obtain ⟨i, hi⟩ | ⟨hunknown, -⟩ := decodedAt_cases c.opc s
      · exact stepWith_of_decoded hrun hpc hi ▸ exec_is_next i s
      · exact stepWith_of_unknown hrun hpc hunknown ▸ unknownOpcode_is_next _ _ s
    · exact ⟨_, stepWith_of_fetch_error hrun hpc⟩
  · exact ⟨s, stepWith_ended c hrun⟩

/-- The effect of a step: none on an ended machine, a fault entry, the advance over an unknown opcode, or the effect of
the instruction it decoded (40_sequencer.md R70 to R77). -/
inductive StepEffect (c : Config) (s t : State) : Prop
  | ended (ht : t = s)
  | faulted (r : FaultReport) (ht : t = takeFault r s)
  | skipped (p : Byte) (ht : t = s.setPc p)
  | executed (i : Instr) (hpc : s.pc.toNat + 2 < 256) (hi : decodedAt c.opc s = .ok i) (ht : Completed i s t)

/-- Passing an unknown opcode faults or advances (40_sequencer.md R76). -/
theorem unknownOpcode_effect (c : Config) {policy : UnknownOpcodePolicy} {ir : Byte} {s t : State}
    (h : unknownOpcode policy ir s = .next t) : StepEffect c s t := by
  cases policy with
  | strict => exact .faulted _ (Host.Outcome.next.inj h).symm
  | permissive =>
    obtain hok | ⟨r, -, ht⟩ := complete_eq_next h
    · exact .skipped _ (advance_eq_ok.1 hok).2
    · exact .faulted r ht

/-- Everything a step can do. -/
theorem stepWith_effect {c : Config} {s t : State} (h : stepWith c s = .next t) : StepEffect c s t := by
  by_cases hrun : s.run = .running
  · by_cases hpc : s.pc.toNat + 2 < 256
    · obtain ⟨i, hi⟩ | ⟨hunknown, -⟩ := decodedAt_cases c.opc s
      · rw [stepWith_of_decoded hrun hpc hi] at h
        obtain ht | ⟨r, ht⟩ := exec_cases h
        · exact .executed i hpc hi ht
        · exact .faulted r ht
      · rw [stepWith_of_unknown hrun hpc hunknown] at h
        exact unknownOpcode_effect c h
    · rw [stepWith_of_fetch_error hrun hpc] at h
      exact .faulted _ (Host.Outcome.next.inj h).symm
  · rw [stepWith_ended c hrun] at h
    exact .ended (Host.Outcome.next.inj h).symm

/-- A step keeps the flags, or it is a completed CMP and they are those of its compare. -/
theorem stepWith_flags {c : Config} {s t : State} (h : stepWith c s = .next t) :
    t.flags = s.flags ∨ ∃ (a b : Byte) (ha : namesRegister a) (hb : namesRegister b), decodedAt c.opc s = .ok (.cmp a b) ∧
      s.pc.toNat + 3 < 256 ∧ t.flags = compareFlags (s.reg ⟨a.toNat, ha⟩) (s.reg ⟨b.toNat, hb⟩) := by
  cases stepWith_effect h with
  | ended ht | faulted _ ht | skipped _ ht => exact .inl (by simp [ht])
  | executed i _ hi ht =>
    obtain hkept | ⟨a, b, ha, hb, rfl, hpc, hflags⟩ := ht.flags_eq
    · exact .inl hkept
    · exact .inr ⟨a, b, ha, hb, hi, hpc, hflags⟩

/-- A step keeps the output, or it is a completed PRN and its value is appended. -/
theorem stepWith_out {c : Config} {s t : State} (h : stepWith c s = .next t) :
    t.out = s.out ∨ ∃ (a : Byte) (ha : namesRegister a), decodedAt c.opc s = .ok (.prn a) ∧
      t.out = s.out ++ [s.reg ⟨a.toNat, ha⟩] := by
  cases stepWith_effect h with
  | ended ht | faulted _ ht | skipped _ ht => exact .inl (by simp [ht])
  | executed i _ hi ht =>
    obtain hkept | ⟨a, ha, rfl, hout⟩ := ht.out_eq
    · exact .inl hkept
    · exact .inr ⟨a, ha, hi, hout⟩

/-- A step keeps the memory, or it is a completed PUSH or CALL and one byte is written, at the decremented stack
pointer. -/
theorem stepWith_mem {c : Config} {s t : State} (h : stepWith c s = .next t) :
    t.mem = s.mem ∨ ∃ a v, namesRegister a ∧ (decodedAt c.opc s = .ok (.push a) ∨ decodedAt c.opc s = .ok (.call a)) ∧
      t.mem = s.mem.write (pushAddress s).toNat v := by
  cases stepWith_effect h with
  | ended ht | faulted _ ht | skipped _ ht => exact .inl (by simp [ht])
  | executed i _ hi ht =>
    obtain hkept | ⟨a, v, ha, rfl | rfl, hmem⟩ := ht.mem_eq
    · exact .inl hkept
    · exact .inr ⟨a, v, ha, .inl hi, hmem⟩
    · exact .inr ⟨a, v, ha, .inr hi, hmem⟩

/-! ## The invariants and what a step may write -/

/-- A compare sets exactly one flag, by the trichotomy of the order (10_state.md R17). -/
theorem compareFlags_exactlyOne (u v : Byte) : (compareFlags u v).ExactlyOne := by
  unfold compareFlags Flags.ExactlyOne
  obtain h | h | h := Nat.lt_trichotomy u.toNat v.toNat
  · exact .inl (by simp [h, h.le, h.ne])
  · exact .inr (.inr (by simp [h]))
  · exact .inr (.inl (by simp [h, h.le, h.ne']))

/-- Settles O15: the flags are kept, or they are those of a compare, which sets exactly one. -/
theorem flagsStayExclusive : Obligations.FlagsStayExclusive := by
  intro c s t hs h
  obtain hkept | ⟨a, b, ha, hb, -, -, hflags⟩ := stepWith_flags h
  · exact hkept ▸ hs
  · exact hflags ▸ .inr (compareFlags_exactlyOne _ _)

/-- Settles O17: the memory is kept, or one byte is written at an address below 256. -/
theorem memoryStaysCanonical : Obligations.MemoryStaysCanonical := by
  intro c s t hs h
  unfold State.MemoryCanonical at *
  obtain hkept | ⟨a, v, -, -, hmem⟩ := stepWith_mem h
  · rw [hkept, hs]
  · rw [hmem, Memory.write_wf hs (byte_lt _) v]

/-- Settles O16: the flags are kept, or they are those of a compare, which sets exactly one. -/
theorem oneFlagStaysSet : Obligations.OneFlagStaysSet := by
  intro c s t hs h
  obtain hkept | ⟨a, b, ha, hb, -, -, hflags⟩ := stepWith_flags h
  · exact hkept ▸ hs
  · exact hflags ▸ compareFlags_exactlyOne _ _

/-- Settles O20: a step that does not keep the flags is a completed CMP. -/
theorem onlyCompareWritesFlags : Obligations.OnlyCompareWritesFlags := by
  intro c s t h hchanged
  obtain hkept | ⟨a, b, ha, hb, hi, hpc, -⟩ := stepWith_flags h
  · exact absurd hkept hchanged
  · exact ⟨a, b, ha, hb, Nat.le_of_lt_succ hpc, hi⟩

/-- Settles O22: a step that does not keep the output is a completed PRN. -/
theorem outputGrowsOnlyByPrint : Obligations.OutputGrowsOnlyByPrint := fun _ _ _ h hchanged =>
  (stepWith_out h).resolve_left hchanged

/-- Settles O23: a step that does not keep the memory is a completed PUSH or CALL, and a write changes its own address
alone. -/
theorem onlyPushAndCallWriteMemory : Obligations.OnlyPushAndCallWriteMemory := by
  intro c s t addr h hchanged
  obtain hkept | ⟨a, v, ha, hi, hmem⟩ := stepWith_mem h
  · exact absurd (by rw [hkept]) hchanged
  · refine ⟨?_, a, ha, hi⟩
    rw [← toNat_pushAddress]
    by_contra hne
    exact hchanged (by rw [hmem, Memory.read_write_ne _ _ hne])

/-- Settles O14: the step of the machine at hand is the step under its configuration. -/
theorem everyStateHasNextState : Obligations.EveryStateHasNextState :=
  ⟨exec_is_next, stepWith_is_next, stepWith_is_next machineConfig⟩

end Sys2Proof.Machine
end

section
/-!
PROOF. The statements on the sequencer: what a step does at an ended machine, at the top of memory, at a decoded
instruction and at an unknown opcode, and that a run that has ended stays where it ended.
-/

namespace Sys2Proof.Machine

/-- Settles O5: below 254 the fetch reads the bytes the statement decodes. -/
theorem stepRunsDecodedInstruction : Obligations.StepRunsDecodedInstruction :=
  ⟨fun _ _ _ hrun hpc hi => stepWith_of_decoded hrun (by omega) hi,
    fun _ _ hrun hpc hi => stepWith_of_decoded (c := machineConfig) hrun (by omega) hi⟩

/-- Settles O6: an ended machine is left as it is, under the configuration of the machine at hand too. -/
theorem endedMachineNeverChanges : Obligations.EndedMachineNeverChanges := fun c _ hrun =>
  ⟨stepWith_ended c hrun, stepWith_ended machineConfig hrun⟩

/-- Settles O7: the fetch of the third byte, or of the second, meets address 256. -/
theorem fetchFaultsAtTopOfMemory : Obligations.FetchFaultsAtTopOfMemory := fun _ _ hrun hpc =>
  stepWith_of_fetch_error hrun (by omega)

/-- Settles O8: the strict branch of the unknown opcode is its fault entry. -/
theorem strictUnknownOpcodeFaults : Obligations.StrictUnknownOpcodeFaults := by
  intro c s hpolicy hrun hpc hunknown
  rw [stepWith_of_unknown hrun (by omega) hunknown, hpolicy]
  rfl

/-- Bits 7:6 of a byte are its quotient by 64 (30_encoding.md R51). -/
theorem instrSize_eq (ir : Byte) : instrSize ir = ir.toNat / 64 + 1 := by
  have hlt := byte_lt ir
  simp only [instrSize, sizeField, BitVec.extractLsb_toNat, Nat.shiftRight_eq_div_pow]
  omega

/-- Settles O9: the permissive branch of the unknown opcode is an advance by the size the byte announces. -/
theorem permissiveUnknownOpcodeOnlyAdvances : Obligations.PermissiveUnknownOpcodeOnlyAdvances := by
  intro c s hpolicy hrun hpc hunknown n
  have hstep : stepWith c s = complete s (advance n s s) := by
    rw [stepWith_of_unknown hrun (by omega) hunknown, hpolicy, unknownOpcode, instrSize_eq]
  refine ⟨fun hfits => ?_, fun hexceeds => ?_⟩
  · have hlt : s.pc.toNat + n < 256 := by omega
    exact ⟨_, by rw [hstep, advance_ok s hlt, complete_ok], rfl, toNat_advanced hlt⟩
  · rw [hstep, advance_error s (by omega), complete_error, takeFault, State.setRun]

/-- A run of one step more starts with that step. -/
theorem run_succ {k : Nat} {s u : State} (hstep : step s = .next u) : core.run (k + 1) s = core.run k u := by
  have hcore : core.step s = .next u := hstep
  simp only [Host.Core.run, hcore]

/-- An ended machine is where it was after any number of steps. -/
theorem run_of_ended (m : Nat) {s : State} (hrun : s.run ≠ .running) : core.run m s = .next s := by
  induction m with
  | zero => rfl
  | succ m ih => rw [run_succ (stepWith_ended machineConfig hrun), ih]

/-- Settles O25, by induction on the steps taken before the run ends. -/
theorem endedRunStaysEnded : Obligations.EndedRunStaysEnded := by
  intro k m s t h hended
  induction k generalizing s with
  | zero =>
    obtain rfl : s = t := Host.Outcome.next.inj h
    rw [Nat.zero_add, run_of_ended m hended]
  | succ k ih =>
    obtain ⟨u, hstep⟩ := stepWith_is_next machineConfig s
    rw [run_succ hstep] at h
    rw [Nat.add_right_comm, run_succ hstep, ih u h]

end Sys2Proof.Machine
end

section
/-!
PROOF. The statements on the priority of faults (60_exceptions.md R147). A chain of checks answers a list of rows when it
raises the first row whose condition holds and completes where none does; each check of the model answers one row, so an
instruction's chain, read check by check, answers its part of the table.
-/

namespace Sys2Proof.Machine

/-- The report of the first row whose condition holds. -/
def firstOf (rows : List (Bool × FaultReport)) : Option FaultReport :=
  (rows.find? fun row => row.1).map fun row => row.2

/-- The chain raises the first row whose condition holds, and where none holds it completes, running or halted. -/
def AnswersRows (rows : List (Bool × FaultReport)) (x : Except FaultReport State) : Prop :=
  match firstOf rows with
  | some r => x = .error r
  | none => ∃ t, x = .ok t ∧ (t.run = .running ∨ t.run = .halted)

/-! ## One rule per check -/

/-- A row whose condition does not hold asks for nothing. -/
theorem answersRows_skip {c : Bool} {r : FaultReport} {rows : List (Bool × FaultReport)} {x : Except FaultReport State}
    (hc : c = false) (h : AnswersRows rows x) : AnswersRows ((c, r) :: rows) x := by
  rw [hc]
  exact h

/-- A row whose condition holds is raised. -/
theorem answersRows_raise {c : Bool} {r : FaultReport} {rows : List (Bool × FaultReport)} (hc : c = true) :
    AnswersRows ((c, r) :: rows) (.error r) := by
  rw [hc]
  exact rfl

/-- Past the last row the chain has completed. -/
theorem answersRows_nil {t : State} (ht : t.run = .running ∨ t.run = .halted) : AnswersRows [] (.ok t) := ⟨t, rfl, ht⟩

/-- The check of a register operand answers the row of that operand (30_encoding.md R54). -/
theorem answersRows_operand {v : Byte} {s : State} {rows : List (Bool × FaultReport)}
    {f : RegIndex → Except FaultReport State} (hf : ∀ h : namesRegister v, AnswersRows rows (f ⟨v.toNat, h⟩)) :
    AnswersRows ((decide (7 < v.toNat), .outOfRange (.register v) s.pc) :: rows) (regOperand v s >>= f) := by
  obtain ⟨h, hok⟩ | ⟨h, herror⟩ := regOperand_cases v s
  · rw [hok, except_ok_bind]
    exact answersRows_skip (decide_eq_false (Nat.not_lt.2 (Nat.le_of_lt_succ h))) (hf h)
  · rw [herror, except_error_bind]
    exact answersRows_raise (decide_eq_true (Nat.not_lt.1 h))

/-- The divisor check answers the row of the zero divisor (41_alu.md R100). -/
theorem answersRows_checkDivisor {c : Bool} {v : Byte} {s : State} {rows : List (Bool × FaultReport)}
    {f : Unit → Except FaultReport State} (hc : c = (v == 0)) (hf : AnswersRows rows (f ())) :
    AnswersRows ((c, .moduloByZero s.pc) :: rows) (checkDivisor v s >>= f) := by
  by_cases hv : v = 0
  · rw [checkDivisor_error s hv, except_error_bind]
    exact answersRows_raise (hc.trans (beq_iff_eq.2 hv))
  · rw [checkDivisor_ok s hv, except_ok_bind]
    exact answersRows_skip (hc.trans (beq_eq_false_iff_ne.2 hv)) hf

/-- The advance answers the last row (40_sequencer.md R75). -/
theorem answersRows_advance {n : Nat} {s t : State} (ht : t.run = .running) :
    AnswersRows [(decide (255 < s.pc.toNat + n), .outOfRange (.memory (s.pc.toNat + n)) s.pc)] (advance n s t) := by
  obtain ⟨h, hok⟩ | ⟨h, herror⟩ := advance_cases n s t
  · rw [hok]
    exact answersRows_skip (decide_eq_false (Nat.not_lt.2 (Nat.le_of_lt_succ h))) (answersRows_nil (.inl ht))
  · rw [herror]
    exact answersRows_raise (decide_eq_true (Nat.not_lt.1 h))

/-! ## The rows of an instruction -/

/-- The rows of the table that are about the decoded instruction: operand a, operand b, the divisor, the advance. -/
def instrRows (i : Instr) (s : State) : List (Bool × FaultReport) :=
  let a := (accessedOperands s.flags i)[0]?
  let b := (accessedOperands s.flags i)[1]?
  let n := advanceSize s.flags i
  [ (a.any (fun v => decide (7 < v.toNat)), .outOfRange (.register (a.getD 0)) s.pc),
    (b.any (fun v => decide (7 < v.toNat)), .outOfRange (.register (b.getD 0)) s.pc),
    (dividesByZero s i, .moduloByZero s.pc),
    (n.any (fun k => decide (255 < s.pc.toNat + k)), .outOfRange (.memory (s.pc.toNat + n.getD 0)) s.pc) ]

/-- Three rows whose conditions fail by computation: an instruction without operands and divisor. -/
theorem answersRows_skip_three {r r' r'' : FaultReport} {rows : List (Bool × FaultReport)}
    {x : Except FaultReport State} (h : AnswersRows rows x) :
    AnswersRows ((false, r) :: (false, r') :: (false, r'') :: rows) x := h

/-- A two-register ALU instruction but MOD checks a, b and the advance (41_alu.md R90). -/
theorem answersRows_aluTwo (op : AluOp) {a b : Byte} {s : State} {r : FaultReport} (hrun : s.run = .running) :
    AnswersRows [(decide (7 < a.toNat), .outOfRange (.register a) s.pc),
      (decide (7 < b.toNat), .outOfRange (.register b) s.pc), (false, r),
      (decide (255 < s.pc.toNat + 3), .outOfRange (.memory (s.pc.toNat + 3)) s.pc)]
      (regOperand a s >>= fun i => regOperand b s >>= fun j =>
        advance 3 s (s.setReg i (aluResult op (s.reg i) (s.reg j)))) :=
  answersRows_operand fun _ => answersRows_operand fun _ => answersRows_skip rfl (answersRows_advance hrun)

/-- A conditional jump checks its operand where it is taken, and its advance where it is not (43_control_compare.md
R122). -/
theorem answersRows_condJump {cond : Flags → Bool} {i : Instr} {a : Byte} {s : State} (hrun : s.run = .running)
    (hcond : jumpCondition s.flags i = some (cond s.flags)) (hend : endsInAdvance s.flags i = !cond s.flags)
    (hoperands : i.registerOperands = [a]) (hsize : i.opcode.operandCount = 1) (hdivides : dividesByZero s i = false) :
    AnswersRows (instrRows i s) (if cond s.flags then jumpTo a s else advance 2 s s) := by
  cases hc : cond s.flags with
  | true =>
    have haccessed : accessedOperands s.flags i = [a] := by simp [accessedOperands, hcond, hc, hoperands]
    have hadvance : advanceSize s.flags i = none := by simp [advanceSize, hend, hc]
    simp only [instrRows, haccessed, hadvance, hdivides, if_true]
    exact answersRows_operand fun _ => answersRows_skip_three (answersRows_nil (.inl hrun))
  | false =>
    have haccessed : accessedOperands s.flags i = [] := by simp [accessedOperands, hcond, hc]
    have hadvance : advanceSize s.flags i = some 2 := by simp [advanceSize, hend, hc, hsize]
    simp only [instrRows, haccessed, hadvance, hdivides, Bool.false_eq_true, if_false]
    exact answersRows_skip_three (answersRows_advance hrun)

/-- With a legal operand b, a MOD divides by zero exactly when its divisor register holds 0 (41_alu.md R100). -/
theorem dividesByZero_mod {a b : Byte} (hb : namesRegister b) (s : State) :
    dividesByZero s (.mod a b) = (s.reg ⟨b.toNat, hb⟩ == 0) := dif_pos hb

/-- Every instruction's chain of checks answers its rows of the table. -/
theorem exec_answersRows (i : Instr) {s : State} (hrun : s.run = .running) :
    ∃ x, exec i s = complete s x ∧ AnswersRows (instrRows i s) x := by
  cases i with
  | hlt => exact ⟨.ok (s.setRun .halted), rfl, answersRows_skip_three (answersRows_nil (.inr rfl))⟩
  | ret =>
    refine ⟨_, rfl, ?_⟩
    rw [topOfStack_eq, except_ok_bind]
    exact answersRows_skip_three (answersRows_nil (.inl hrun))
  | push a =>
    refine ⟨_, rfl, answersRows_operand fun _ => ?_⟩
    rw [pushByte_eq, except_ok_bind]
    exact answersRows_skip rfl (answersRows_skip rfl (answersRows_advance hrun))
  | pop a =>
    refine ⟨_, rfl, answersRows_operand fun _ => ?_⟩
    rw [topOfStack_eq, except_ok_bind]
    exact answersRows_skip rfl (answersRows_skip rfl (answersRows_advance hrun))
  | call a =>
    refine ⟨_, rfl, answersRows_operand fun _ => ?_⟩
    rw [pushByte_eq, except_ok_bind]
    exact answersRows_skip_three (answersRows_nil (.inl hrun))
  | jmp a => exact ⟨_, rfl, answersRows_operand fun _ => answersRows_skip_three (answersRows_nil (.inl hrun))⟩
  | prn a | not a | ldi a imm =>
    exact ⟨_, rfl, answersRows_operand fun _ => answersRows_skip rfl (answersRows_skip rfl (answersRows_advance hrun))⟩
  | jeq a | jgt a | jle a | jge a => exact ⟨_, rfl, answersRows_condJump hrun rfl rfl rfl rfl rfl⟩
  | jne a | jlt a => exact ⟨_, rfl, answersRows_condJump hrun rfl (Bool.not_not _).symm rfl rfl rfl⟩
  | cmp a b =>
    exact ⟨_, rfl, answersRows_operand fun _ => answersRows_operand fun _ =>
      answersRows_skip rfl (answersRows_advance hrun)⟩
  | mod a b =>
    exact ⟨_, rfl, answersRows_operand fun _ => answersRows_operand fun hb =>
      answersRows_checkDivisor (dividesByZero_mod hb s) (answersRows_advance hrun)⟩
  | add a b | sub a b | mul a b | and a b | or a b | xor a b | shl a b | shr a b =>
    exact ⟨_, rfl, answersRows_aluTwo _ hrun⟩

/-! ## The whole table -/

/-- Where the bytes at the program counter decode, the table ends in the rows of that instruction. -/
theorem priorityTable_of_decoded {c : Config} {s : State} {i : Instr} (hi : decodedAt c.opc s = .ok i) :
    priorityTable c s = (priorityTable c s).take 3 ++ instrRows i s := by
  simp [priorityTable, instrRows, stepAccessedOperands, stepAdvanceSize, hi]

/-- At an unknown opcode the table ends in the row of the permissive advance (40_sequencer.md R76). -/
theorem priorityTable_of_unknown {c : Config} {s : State} {e : DecodeError} (he : decodedAt c.opc s = .error e) :
    let n := instrSize (s.mem.read s.pc.toNat)
    priorityTable c s = (priorityTable c s).take 3 ++
      [(false, .outOfRange (.register 0) s.pc), (false, .outOfRange (.register 0) s.pc), (false, .moduloByZero s.pc),
        (decide (255 < s.pc.toNat + n), .outOfRange (.memory (s.pc.toNat + n)) s.pc)] := by
  simp [priorityTable, stepAccessedOperands, stepAdvanceSize, he]

/-- The two rows of the fetch do not hold below 254 (40_sequencer.md R71). -/
theorem answersRows_fetch {s : State} {r r' : FaultReport} {rows : List (Bool × FaultReport)}
    {x : Except FaultReport State} (hpc : s.pc.toNat + 2 < 256) (h : AnswersRows rows x) :
    AnswersRows ((s.pc == 255#8, r) :: (s.pc == 254#8, r') :: rows) x := by
  refine answersRows_skip ?_ (answersRows_skip ?_ h) <;>
  · rw [beq_eq_false_iff_ne]
    rintro hpc'
    simp [hpc'] at hpc

/-- The row of the unknown opcode holds exactly under the strict policy at a byte that is no opcode (40_sequencer.md
R76). -/
theorem unknownOpcode_row_iff {c : Config} {ir : Byte} :
    (Opcode.all.all (fun o => c.opc o != ir) && c.unknownOpcodePolicy == .strict) = true ↔
      (∀ o, c.opc o ≠ ir) ∧ c.unknownOpcodePolicy = .strict := by
  simp [Opcode.mem_all]

/-- A step of the running machine is a chain of checks that answers the whole table. -/
theorem stepWith_answersRows (c : Config) {s : State} (hrun : s.run = .running) :
    ∃ x, stepWith c s = complete s x ∧ AnswersRows (priorityTable c s) x := by
  by_cases hpc : s.pc.toNat + 2 < 256
  · obtain ⟨i, hi⟩ | ⟨hunknown, hrejected⟩ := decodedAt_cases c.opc s
    · obtain ⟨x, hexec, hrows⟩ := exec_answersRows i hrun
      obtain ⟨o, hfound, -⟩ := decodeWith_eq_ok_iff.1 hi
      refine ⟨x, (stepWith_of_decoded hrun hpc hi).trans hexec, ?_⟩
      rw [priorityTable_of_decoded hi]
      refine answersRows_fetch hpc (answersRows_skip (Bool.eq_false_iff.2 fun hrow => ?_) hrows)
      exact (unknownOpcode_row_iff.1 hrow).1 o (opcodeOf?_some hfound)
    · have hstep := stepWith_of_unknown hrun hpc hunknown
      cases hpolicy : c.unknownOpcodePolicy with
      | strict =>
        refine ⟨.error (.unknownOpcode s.pc (s.mem.read s.pc.toNat)), by rw [hstep, hpolicy]; rfl, ?_⟩
        exact answersRows_fetch hpc (answersRows_raise (unknownOpcode_row_iff.2 ⟨hunknown, hpolicy⟩))
      | permissive =>
        refine ⟨advance (instrSize (s.mem.read s.pc.toNat)) s s, by rw [hstep, hpolicy]; rfl, ?_⟩
        rw [priorityTable_of_unknown hrejected]
        refine answersRows_fetch hpc (answersRows_skip (Bool.eq_false_iff.2 fun hrow => ?_)
          (answersRows_skip_three (answersRows_advance hrun)))
        simp [hpolicy] at hrow
  · refine ⟨.error (.outOfRange (.memory 256) s.pc), by rw [stepWith_of_fetch_error hrun hpc]; rfl, ?_⟩
    by_cases h255 : s.pc = 255
    · exact answersRows_raise (beq_iff_eq.2 h255)
    · have h254 : s.pc = 254 := by bv_omega
      exact answersRows_skip (beq_eq_false_iff_ne.2 h255) (answersRows_raise (beq_iff_eq.2 h254))

/-- Settles O10: the step's chain of checks answers the priority table. -/
theorem firstFaultInPriorityOrder : Obligations.FirstFaultInPriorityOrder := by
  intro c s hrun
  obtain ⟨x, hstep, hrows⟩ := stepWith_answersRows c hrun
  unfold AnswersRows at hrows
  refine ⟨fun r hr => ?_, fun hnone => ?_⟩
  · rw [show firstOf (priorityTable c s) = some r from hr] at hrows
    rw [hstep, hrows]
    rfl
  · rw [show firstOf (priorityTable c s) = none from hnone] at hrows
    obtain ⟨t, rfl, ht⟩ := hrows
    exact ⟨t, hstep, ht⟩

/-- A step reaches Faulted exactly with the report of the first fault. -/
theorem stepWith_faulted_iff {c : Config} {s t : State} (hrun : s.run = .running) (h : stepWith c s = .next t)
    (r : FaultReport) : t.run = .faulted r ↔ firstFault c s = some r := by
  obtain ⟨hfaults, hcompletes⟩ := firstFaultInPriorityOrder c s hrun
  cases hfirst : firstFault c s with
  | some r' =>
    obtain rfl := Host.Outcome.next.inj (h.symm.trans (hfaults r' hfirst))
    simp
  | none =>
    obtain ⟨u, hu, hended⟩ := hcompletes hfirst
    obtain rfl := Host.Outcome.next.inj (h.symm.trans hu)
    obtain hended | hended := hended <;> simp [hended]

/-- Every row of the table records the program counter (60_exceptions.md R145). -/
theorem recordedPc_of_firstFault {c : Config} {s : State} {r : FaultReport} (h : firstFault c s = some r) :
    r.recordedPc = some s.pc := by
  obtain ⟨row, hfound, rfl⟩ := Option.map_eq_some_iff.1 h
  have hrecords : ∀ row ∈ priorityTable c s, row.2.recordedPc = some s.pc := by
    simp [priorityTable, FaultReport.recordedPc]
  exact hrecords row (List.mem_of_find?_eq_some hfound)

/-- Settles O11: the report is the first fault of the table, whose step changes the run state alone. -/
theorem faultingStepChangesOnlyRunState : Obligations.FaultingStepChangesOnlyRunState := by
  intro c s t r hrun h hfaulted
  have hfirst := (stepWith_faulted_iff hrun h r).1 hfaulted
  have hstep := (firstFaultInPriorityOrder c s hrun).1 r hfirst
  exact ⟨Host.Outcome.next.inj (h.symm.trans hstep), recordedPc_of_firstFault hfirst⟩

/-- A step reaches Halted exactly when it executes HLT (43_control_compare.md R132). -/
theorem stepWith_halted_iff {c : Config} {s t : State} (hrun : s.run = .running) (h : stepWith c s = .next t) :
    t.run = .halted ↔ s.pc.toNat ≤ 253 ∧ decodedAt c.opc s = .ok .hlt := by
  constructor
  · intro hhalted
    cases stepWith_effect h with
    | ended ht | faulted _ ht | skipped _ ht => simp [ht, hrun] at hhalted
    | executed i hpc hi ht =>
      obtain hkept | ⟨rfl, -⟩ := ht.run_eq
      · simp [hkept, hrun] at hhalted
      · exact ⟨by omega, hi⟩
  · rintro ⟨hpc, hi⟩
    rw [stepWith_of_decoded hrun (by omega) hi] at h
    rw [← Host.Outcome.next.inj h, State.run_setRun]

/-- Settles O12: a completed instruction of a running machine leaves it running unless it is HLT, and a fault is the
table's. -/
theorem haltedOnlyByHltFaultedOnlyByFault : Obligations.HaltedOnlyByHltFaultedOnlyByFault := fun _ _ _ hrun h =>
  ⟨stepWith_halted_iff hrun h, stepWith_faulted_iff hrun h, fun _ ⟨hhalted, hfaulted⟩ =>
    RunState.noConfusion (hhalted.symm.trans hfaulted)⟩

end Sys2Proof.Machine
end

section
/-!
PROOF. The rules of SHL, SHR, PRN, PUSH, POP, CMP, CALL, RET, HLT and the six conditional jumps. Each instruction with
legal operands is one equation, its next state; the rule reads it, and so do the statements on sequences.
-/

namespace Sys2Proof.Machine

/-! ## The shifts (41_alu.md R98, R99) -/

/-- From a count of 8 on every bit of the byte has left it to the left. -/
theorem mul_two_pow_min_eight (u n : Nat) : u * 2 ^ n % 256 = u * 2 ^ min n 8 % 256 := by
  obtain hn | hn := Nat.le_total n 8
  · rw [Nat.min_eq_left hn]
  · have hsplit : u * 2 ^ n = 256 * (u * 2 ^ (n - 8)) := by
      rw [← Nat.add_sub_of_le hn, Nat.pow_add, Nat.add_sub_cancel_left]
      ring
    rw [Nat.min_eq_right hn, hsplit]
    omega

/-- From a count of 8 on every bit of the byte has left it to the right. -/
theorem div_two_pow_min_eight {u : Nat} (hu : u < 256) (n : Nat) : u / 2 ^ n = u / 2 ^ min n 8 := by
  obtain hn | hn := Nat.le_total n 8
  · rw [Nat.min_eq_left hn]
  · have hpow : 2 ^ 8 ≤ 2 ^ n := Nat.pow_le_pow_right (by decide) hn
    have hlt : u < 2 ^ 8 := hu
    rw [Nat.min_eq_right hn, Nat.div_eq_of_lt (hlt.trans_le hpow), Nat.div_eq_of_lt hlt]

/-- Settles O34: modulo 256 a count above 8 shifts as 8 does. -/
theorem shlRule : Obligations.ShlRule :=
  twoRegisterAluRule_of_result (op := .shl) (fun _ _ => rfl) (fun _ _ _ => rfl) fun u n => by
    rw [aluResult, shlResult, toNat_trunc8]
    exact_mod_cast mul_two_pow_min_eight u.toNat n.toNat

/-- Settles O35: of a byte a count above 8 leaves what 8 leaves. -/
theorem shrRule : Obligations.ShrRule :=
  twoRegisterAluRule_of_result (op := .shr) (fun _ _ => rfl) (fun _ _ _ => rfl) fun u n => by
    rw [aluResult, shrResult, toNat_trunc8, div_two_pow_min_eight (byte_lt u)]

/-! ## Next states with legal operands -/

/-- An instruction that checks its register operand first raises on an operand that names no register (30_encoding.md
R54). -/
theorem raises_of_operand {i : Instr} {a : Byte} {s : State} {f : RegIndex → Except FaultReport State}
    (hexec : exec i s = complete s (regOperand a s >>= f)) (ha : ¬ namesRegister a) :
    Raises i s (.outOfRange (.register a) s.pc) :=
  raises_of_complete hexec (by rw [regOperand_error s ha, except_error_bind])

/-- PRN (42_data_stack.md R111). -/
theorem exec_prn {a : Byte} (ha : namesRegister a) {s : State} (hpc : s.pc.toNat + 2 < 256) :
    exec (.prn a) s = .next ((s.output (s.reg ⟨a.toNat, ha⟩)).setPc (BitVec.ofNat 8 (s.pc.toNat + 2))) := by
  rw [exec, execPrn, regOperand_ok s ha, except_ok_bind, advance_ok _ hpc, complete_ok]

/-- What a push of the byte `v` leaves, but for the program counter (42_data_stack.md R112; 43_control_compare.md
R130). -/
def pushed (s : State) (v : Byte) : State := (decrementSp s).setMem (s.mem.write (pushAddress s).toNat v)

/-- PUSH (42_data_stack.md R112). -/
theorem exec_push {a : Byte} (ha : namesRegister a) {s : State} (hpc : s.pc.toNat + 2 < 256) :
    exec (.push a) s =
      .next ((pushed s ((decrementSp s).reg ⟨a.toNat, ha⟩)).setPc (BitVec.ofNat 8 (s.pc.toNat + 2))) := by
  rw [exec, execPush, regOperand_ok s ha, except_ok_bind, pushByte_eq, except_ok_bind, advance_ok _ hpc, complete_ok]
  rfl

/-- CALL (43_control_compare.md R130). -/
theorem exec_call {a : Byte} (ha : namesRegister a) (s : State) :
    exec (.call a) s = .next ((pushed s (returnAddress s)).setPc ((decrementSp s).reg ⟨a.toNat, ha⟩)) := by
  rw [exec, execCall, regOperand_ok s ha, except_ok_bind, pushByte_eq]
  rfl

/-- POP (42_data_stack.md R113). -/
theorem exec_pop {a : Byte} (ha : namesRegister a) {s : State} (hpc : s.pc.toNat + 2 < 256) :
    exec (.pop a) s = .next ((incrementSp (s.setReg ⟨a.toNat, ha⟩ (s.mem.read s.sp.toNat))).setPc
      (BitVec.ofNat 8 (s.pc.toNat + 2))) := by
  rw [exec, execPop, regOperand_ok s ha, except_ok_bind, topOfStack_eq, except_ok_bind, advance_ok _ hpc, complete_ok]

/-- RET (43_control_compare.md R131). -/
theorem exec_ret (s : State) : exec .ret s = .next (incrementSp (s.setPc (s.mem.read s.sp.toNat))) := by
  rw [exec, execRet, topOfStack_eq]
  rfl

/-- With legal operands CMP is its write and its advance (43_control_compare.md R120). -/
theorem exec_cmp_of_legal {a b : Byte} (ha : namesRegister a) (hb : namesRegister b) (s : State) :
    exec (.cmp a b) s = complete s (advance 3 s
      (s.setFlags (compareFlags (s.reg ⟨a.toNat, ha⟩) (s.reg ⟨b.toNat, hb⟩)))) := by
  rw [exec, execCmp, regOperand_ok s ha, except_ok_bind, regOperand_ok s hb, except_ok_bind]

/-- CMP (43_control_compare.md R120). -/
theorem exec_cmp {a b : Byte} (ha : namesRegister a) (hb : namesRegister b) {s : State} (hpc : s.pc.toNat + 3 < 256) :
    exec (.cmp a b) s = .next ((s.setFlags (compareFlags (s.reg ⟨a.toNat, ha⟩) (s.reg ⟨b.toNat, hb⟩))).setPc
      (BitVec.ofNat 8 (s.pc.toNat + 3))) := by
  rw [exec_cmp_of_legal ha hb, advance_ok _ hpc, complete_ok]

/-- A conditional jump taken to a named register (43_control_compare.md R122). -/
theorem condJump_taken {cond : Flags → Bool} {a : Byte} (ha : namesRegister a) {s : State}
    (hcond : cond s.flags = true) : condJump cond a s = .next { s with pc := s.reg ⟨a.toNat, ha⟩ } := by
  rw [condJump, if_pos hcond, jumpTo_ok s ha, complete_ok, State.setPc]

/-- The advanced program counter, as a sum of bytes. -/
theorem ofNat_toNat_add (p : Byte) (n : Nat) : BitVec.ofNat 8 (p.toNat + n) = p + BitVec.ofNat 8 n := by
  rw [BitVec.ofNat_add, BitVec.ofNat_toNat, BitVec.setWidth_eq]

/-- A conditional jump not taken, whatever its operand byte (43_control_compare.md R122). -/
theorem condJump_not_taken {cond : Flags → Bool} (a : Byte) {s : State} (hcond : cond s.flags = false)
    (hpc : s.pc.toNat ≤ 253) : condJump cond a s = .next { s with pc := s.pc + 2 } := by
  have hnot : ¬ cond s.flags = true := by simp [hcond]
  rw [condJump, if_neg hnot, advance_ok s (by omega), complete_ok, ofNat_toNat_add, State.setPc]
  rfl

/-! ## What a push leaves -/

@[simp] theorem mem_pushed (s : State) (v : Byte) : (pushed s v).mem = s.mem.write (pushAddress s).toNat v := rfl
@[simp] theorem reg_pushed (s : State) (v : Byte) (k : RegIndex) : (pushed s v).reg k = (decrementSp s).reg k := rfl

/-- The new stack pointer (42_data_stack.md R112). -/
theorem toNat_sp_decrementSp (s : State) : ((decrementSp s).reg 7).toNat = (s.sp.toNat + 255) % 256 := by
  rw [← toNat_pushAddress, ← sp_decrementSp, State.sp_eq_reg]

/-- The byte pushed is read at the new stack pointer of a canonical memory (log entry 4). -/
theorem read_pushed_self {s : State} (hs : s.MemoryCanonical) (v : Byte) :
    (pushed s v).mem.read ((s.sp.toNat + 255) % 256) = v := by
  rw [← toNat_pushAddress, mem_pushed, Memory.read_write_self hs]

/-- A push changes no other byte. -/
theorem read_pushed_ne (s : State) (v : Byte) {addr : Nat} (h : addr ≠ (s.sp.toNat + 255) % 256) :
    (pushed s v).mem.read addr = s.mem.read addr := by
  rw [← toNat_pushAddress] at h
  rw [mem_pushed, Memory.read_write_ne _ _ h]

/-! ## Data movement and stack -/

/-- Settles O39: the operand check raises before anything is output. -/
theorem prnRule : Obligations.PrnRule := by
  refine ⟨fun _ => rfl, fun a s => ⟨raises_of_operand rfl, fun ha hpc => ?_⟩⟩
  rw [exec_prn ha (by omega), ofNat_toNat_add]
  rfl

/-- Settles O40: the source register is read in the decremented state, which is the next state's. -/
theorem pushRule : Obligations.PushRule := by
  refine ⟨fun _ => rfl, fun a s => ⟨raises_of_operand rfl, fun ha hpc => ?_⟩⟩
  have hlt : s.pc.toNat + 2 < 256 := by omega
  exact ⟨_, exec_push ha hlt, toNat_sp_decrementSp s, fun k hk => reg_decrementSp_ne s hk,
    fun hs => read_pushed_self hs _, fun addr h => read_pushed_ne s _ h, toNat_advanced hlt, rfl, rfl, rfl⟩

/-- Settles O41: register 7 is incremented as the destination write left it, so the two clauses differ in whether that
write was to register 7. -/
theorem popRule : Obligations.PopRule := by
  refine ⟨fun _ => rfl, fun a s => ⟨raises_of_operand rfl, fun ha hpc => ?_⟩⟩
  have hlt : s.pc.toNat + 2 < 256 := by omega
  set popped := s.setReg ⟨a.toNat, ha⟩ (s.mem.read s.sp.toNat) with hpopped
  have hsp : ((incrementSp popped).reg 7).toNat = ((popped.reg 7).toNat + 1) % 256 := toNat_sp_incrementSp popped
  refine ⟨_, exec_pop ha hlt, fun h7 => ⟨?_, ?_⟩, fun h7 => ?_, fun k hka hk7 => ?_, toNat_advanced hlt,
    fun _ => rfl, rfl, rfl, rfl⟩ <;> simp only [State.reg_setPc, ← hpopped]
  · rw [reg_incrementSp_ne _ fun e => h7 (Fin.ext_iff.1 e), hpopped, State.reg_setReg_self]
  · rw [hsp, hpopped, State.reg_setReg_ne _ _ fun e => h7 (Fin.ext_iff.1 e).symm, State.sp_eq_reg]
  · have hdest : (⟨a.toNat, ha⟩ : RegIndex) = 7 := Fin.ext h7
    rw [hsp, hpopped, hdest, State.reg_setReg_self]
  · rw [reg_incrementSp_ne _ hk7, hpopped, State.reg_setReg_ne _ _ fun e => hka (Fin.ext_iff.1 e)]

/-! ## Compare and control transfer -/

/-- Settles O42: the operand checks come first, then the advance, and the flags written are those of the compare. -/
theorem cmpRule : Obligations.CmpRule := by
  refine ⟨fun _ _ => rfl, twoRegisterFaults_of_checks (fun _ _ _ => rfl), fun a b ha hb s => ?_⟩
  refine ⟨fun hpc => raises_of_complete (exec_cmp_of_legal ha hb s) (advance_error _ (by omega)), fun hpc => ?_⟩
  have hlt : s.pc.toNat + 3 < 256 := by omega
  exact ⟨_, exec_cmp ha hb hlt, decide_eq_true_iff, decide_eq_true_iff, decide_eq_true_iff,
    compareFlags_exactlyOne _ _, rfl, toNat_advanced hlt⟩

/-- An instruction that is the shared conditional jump has its rule as soon as its condition is the stated one
(43_control_compare.md R122). -/
theorem conditionalJumpRule_of_condJump {opByte : Byte} {mk : Byte → Instr} {cond : Flags → Bool}
    {stated : Bool → Bool → Bool → Bool} (hencode : ∀ a, encode (mk a) = [opByte, a])
    (hexec : ∀ a s, exec (mk a) s = condJump cond a s)
    (hcond : ∀ f : Flags, stated f.less f.greater f.equal = cond f) : ConditionalJumpRule opByte mk stated := by
  refine ⟨hencode, fun a s => ?_⟩
  rw [hcond, hexec]
  refine ⟨fun htaken => ⟨fun ha => ?_, fun ha => condJump_taken ha htaken⟩, condJump_not_taken a⟩
  exact raises_of_complete (hexec a s) (by rw [if_pos htaken, jumpTo_error s ha])

/-- Settles O44: it is the shared conditional jump on E. -/
theorem jeqRule : Obligations.JeqRule :=
  conditionalJumpRule_of_condJump (cond := condJeq) (fun _ => rfl) (fun _ _ => rfl) fun _ => rfl

/-- Settles O45: it is the shared conditional jump on E clear. -/
theorem jneRule : Obligations.JneRule :=
  conditionalJumpRule_of_condJump (cond := condJne) (fun _ => rfl) (fun _ _ => rfl) fun _ => rfl

/-- Settles O46: it is the shared conditional jump on E or G. -/
theorem jgeRule : Obligations.JgeRule :=
  conditionalJumpRule_of_condJump (cond := condJge) (fun _ => rfl) (fun _ _ => rfl) fun _ => rfl

/-- Settles O47: it is the shared conditional jump on G. -/
theorem jgtRule : Obligations.JgtRule :=
  conditionalJumpRule_of_condJump (cond := condJgt) (fun _ => rfl) (fun _ _ => rfl) fun _ => rfl

/-- Settles O48: it is the shared conditional jump on E or L. -/
theorem jleRule : Obligations.JleRule :=
  conditionalJumpRule_of_condJump (cond := condJle) (fun _ => rfl) (fun _ _ => rfl) fun _ => rfl

/-- Settles O49: it is the shared conditional jump on L clear (spec decision D4). -/
theorem jltRule : Obligations.JltRule :=
  conditionalJumpRule_of_condJump (cond := condJlt) (fun _ => rfl) (fun _ _ => rfl) fun _ => rfl

/-- Below 254 the return address is not reduced (43_control_compare.md R130). -/
theorem toNat_returnAddress {s : State} (hpc : s.pc.toNat ≤ 253) : (returnAddress s).toNat = s.pc.toNat + 2 := by
  have h : (returnAddress s).toNat = (s.pc.toNat + 2) % 256 := toNat_trunc8_nat (s.pc.toNat + 2)
  omega

/-- Settles O50: the target register is read in the decremented state, which is the next state's. -/
theorem callRule : Obligations.CallRule := by
  refine ⟨fun _ => rfl, fun a s => ⟨raises_of_operand rfl, fun ha hpc => ?_⟩⟩
  refine ⟨_, exec_call ha s, toNat_sp_decrementSp s, fun k hk => reg_decrementSp_ne s hk, fun hs => ?_,
    fun addr h => read_pushed_ne s _ h, rfl, rfl, rfl, rfl⟩
  rw [State.mem_setPc, read_pushed_self hs, toNat_returnAddress hpc]

/-- Settles O51: RET has no operand and does not advance, so it has no fault. -/
theorem retRule : Obligations.RetRule :=
  ⟨rfl, fun s => ⟨_, exec_ret s, rfl, toNat_sp_incrementSp _, fun _ hk => reg_incrementSp_ne _ hk, fun _ => rfl, rfl, rfl,
    rfl⟩⟩

/-- Settles O52: HLT has no operand and does not advance, so it has no fault. -/
theorem hltRule : Obligations.HltRule := ⟨rfl, fun _ => rfl⟩

end Sys2Proof.Machine
end

section
/-!
PROOF. The statements on reset and on the host: the reset state is a literal, a load writes consecutive cells, and a move
of the host is one operation of the core guarded by the load window.
-/

namespace Sys2Proof.Machine

/-- Settles O18: the reset memory lists no cell and the reset flags are clear. -/
theorem resetMeetsTheInvariants : Obligations.ResetMeetsTheInvariants :=
  ⟨Memory.wf_nil, .inl rfl, fun _ => RunState.noConfusion⟩

/-- Settles O19: each item is read off the literal. -/
theorem resetState : Obligations.ResetState :=
  ⟨by decide, by decide, rfl, rfl, fun _ => rfl, rfl, rfl⟩

/-- Writing bytes into a canonical memory within the address space puts each byte at its place. -/
theorem Memory.read_writeBytes_inside {m : Memory} (hm : m.wf = true) {addr : Nat} {vs : List Byte}
    (hfits : addr + vs.length ≤ 256) {i : Nat} (hi : i < vs.length) : (m.writeBytes addr vs).read (addr + i) = vs[i] := by
  induction vs generalizing m addr i with
  | nil => exact absurd hi (Nat.not_lt_zero i)
  | cons v vs ih =>
    rw [List.length_cons] at hfits hi
    cases i with
    | zero =>
      rw [Memory.writeBytes, Memory.read_writeBytes_outside _ _ (by omega)]
      exact Memory.read_write_self hm addr v
    | succ i =>
      rw [Memory.writeBytes, show addr + (i + 1) = addr + 1 + i by omega]
      exact ih (Memory.write_wf hm (by omega) v) (by omega) (by omega)

/-- Settles O26: an image that fits is written from cell 0, and one that does not is turned away by the length check. -/
theorem loadWritesImageFromZero : Obligations.LoadWritesImageFromZero := by
  intro bytes s hs
  refine ⟨fun hfits => ?_, fun hexceeds => if_neg (Nat.not_le.2 hexceeds)⟩
  have hend : 0 + bytes.length ≤ 256 := by omega
  refine ⟨s.setMem (s.mem.writeBytes 0 bytes), if_pos hfits, rfl, Memory.writeBytes_wf hs hend, fun i hi => ?_,
    fun i hi => Memory.read_writeBytes_outside _ _ (by omega)⟩
  simpa using Memory.read_writeBytes_inside hs hend hi

/-- Settles O27: the bit guards the load alone, and a step answers a next state in every state. -/
theorem loadWindowIsBeforeFirstStep : Obligations.LoadWindowIsBeforeFirstStep := by
  intro c h bytes
  refine ⟨rfl, fun hclosed => ?_, fun hopen hfits => ?_, ?_⟩
  · simp [hostAct, hclosed]
  · have hload : loadImage bytes h.core = .next (h.core.setMem (h.core.mem.writeBytes Config.loadBase bytes)) :=
      if_pos hfits
    exact ⟨_, by simp [hostAct, hopen, hload, Session.withCore], hload⟩
  · obtain ⟨t, hstep⟩ := stepWith_is_next c h.core
    exact ⟨t, by simp [hostAct, hstep, Session.withCore], hstep⟩

end Sys2Proof.Machine
end

section
/-!
PROOF. The frames of the instructions, whether they complete or fault. A fault entry changes the run state alone, so each
frame is read off the completed effect.
-/

namespace Sys2Proof.Machine

/-! ## One destination register -/

/-- Only the register the operand byte names and the program counter are written. -/
def WritesRegister (a : Byte) (s t : State) : Prop :=
  ∃ (ha : namesRegister a) (v p : Byte), t = (s.setReg ⟨a.toNat, ha⟩ v).setPc p

/-- A two-register ALU instruction writes its first register (41_alu.md R103). -/
theorem AluCompleted.writesRegister {op : AluOp} {a b : Byte} {s t : State} (h : AluCompleted op a b s t) :
    WritesRegister a s t := by
  obtain ⟨ha, _, -, ht⟩ := h
  exact ⟨ha, _, _, ht⟩

/-- The ten ALU instructions and LDI write their first register. -/
theorem Completed.writesRegister {a b : Byte} {i : Instr} {s t : State} (h : Completed i s t)
    (hi : i ∈ [Instr.add a b, .sub a b, .mul a b, .mod a b, .and a b, .or a b, .xor a b, .shl a b, .shr a b, .not a,
      .ldi a b]) : WritesRegister a s t := by
  cases i with
  | add a' b' | sub a' b' | mul a' b' | and a' b' | or a' b' | xor a' b' | shl a' b' | shr a' b' =>
    obtain ⟨rfl, rfl⟩ : a' = a ∧ b' = b := by simpa using hi
    exact AluCompleted.writesRegister h
  | mod a' b' =>
    obtain ⟨rfl, rfl⟩ : a' = a ∧ b' = b := by simpa using hi
    exact h.1.writesRegister
  | not a' =>
    obtain rfl : a' = a := by simpa using hi
    obtain ⟨ha, -, ht⟩ := h
    exact ⟨ha, _, _, ht⟩
  | ldi a' b' =>
    obtain ⟨rfl, rfl⟩ : a' = a ∧ b' = b := by simpa using hi
    obtain ⟨ha, -, ht⟩ := h
    exact ⟨ha, _, _, ht⟩
  | _ => simp at hi

/-- Settles O53: a register write and a new program counter leave everything else, and so does a fault entry. -/
theorem registerInstructionFrame : Obligations.RegisterInstructionFrame := by
  intro a b s t i hi h
  obtain hdone | ⟨r, rfl⟩ := exec_cases h
  · obtain ⟨ha, v, p, rfl⟩ := hdone.writesRegister hi
    exact ⟨fun k hk => State.reg_setReg_ne s v fun e => hk (Fin.ext_iff.1 e), rfl, fun _ => rfl, rfl⟩
  · exact ⟨fun _ _ => rfl, rfl, fun _ => rfl, rfl⟩

/-! ## No register -/

/-- Settles O54: CMP writes the flags, PRN the output, HLT the run state and the jumps the program counter. -/
theorem registerPreservingFrame : Obligations.RegisterPreservingFrame := by
  intro a b s t i hi h
  obtain hdone | ⟨r, rfl⟩ := exec_cases h
  · cases i with
    | cmp a' b' =>
      obtain ⟨ha, hb, -, rfl⟩ := hdone
      have hi : a' = a ∧ b' = b := by simpa using hi
      exact ⟨fun _ => rfl, fun _ => rfl, fun hne => absurd (by rw [hi.1, hi.2]) hne, fun _ => rfl⟩
    | prn a' =>
      obtain ⟨ha, -, rfl⟩ := hdone
      have hi : a' = a := by simpa using hi
      exact ⟨fun _ => rfl, fun _ => rfl, fun _ => rfl, fun hne => absurd (by rw [hi]) hne⟩
    | jmp a' =>
      obtain ⟨ha, rfl⟩ := hdone
      exact ⟨fun _ => rfl, fun _ => rfl, fun _ => rfl, fun _ => rfl⟩
    | jeq a' | jne a' | jge a' | jgt a' | jle a' | jlt a' =>
      rw [CondJumpCompleted.eq_setPc hdone]
      exact ⟨fun _ => rfl, fun _ => rfl, fun _ => rfl, fun _ => rfl⟩
    | hlt =>
      obtain rfl := hdone
      exact ⟨fun _ => rfl, fun _ => rfl, fun _ => rfl, fun _ => rfl⟩
    | _ => simp at hi
  · exact ⟨fun _ => rfl, fun _ => rfl, fun _ => rfl, fun _ => rfl⟩

/-! ## The stack pointer -/

/-- Settles O55: both are a push and a new program counter. -/
theorem pushCallFrame : Obligations.PushCallFrame := by
  intro a s t i hi h
  have hpushed : (∃ v p, t = (pushed s v).setPc p) ∨ ∃ r, t = takeFault r s := by
    refine (exec_cases h).imp_left fun hdone => ?_
    obtain rfl | rfl : i = .push a ∨ i = .call a := by simpa using hi
    · obtain ⟨ha, -, ht⟩ := hdone
      exact ⟨_, _, ht⟩
    · obtain ⟨ha, ht⟩ := hdone
      exact ⟨_, _, ht⟩
  obtain ⟨v, p, rfl⟩ | ⟨r, rfl⟩ := hpushed
  · exact ⟨fun k hk => reg_decrementSp_ne s hk, fun addr h => Memory.read_write_ne _ _ h, rfl, rfl⟩
  · exact ⟨fun _ _ => rfl, fun _ _ => rfl, rfl, rfl⟩

/-- Settles O56: both increment the stack pointer, POP after the write of its destination. -/
theorem popRetFrame : Obligations.PopRetFrame := by
  refine fun a s t => ⟨fun h => ?_, fun h => ?_⟩ <;> obtain hdone | ⟨r, rfl⟩ := exec_cases h
  · obtain ⟨ha, -, rfl⟩ := hdone
    refine ⟨fun k hka hk7 => ?_, rfl, fun _ => rfl, rfl⟩
    rw [State.reg_setPc, reg_incrementSp_ne _ hk7, State.reg_setReg_ne _ _ fun e => hka (Fin.ext_iff.1 e)]
  · exact ⟨fun _ _ _ => rfl, rfl, fun _ => rfl, rfl⟩
  · obtain rfl := hdone
    exact ⟨fun k hk => reg_incrementSp_ne _ hk, rfl, fun _ => rfl, rfl⟩
  · exact ⟨fun _ _ => rfl, rfl, fun _ => rfl, rfl⟩

end Sys2Proof.Machine
end

section
/-!
PROOF. The statement that only the conditional jumps read the flags. From two states that differ in the flags alone, the
chain of operations of any other instruction raises the same fault, or ends in two such states again.
-/

namespace Sys2Proof.Machine

/-- Two chains of operations raise the same fault, or end in states that differ in the flags alone. -/
inductive SameButFlags : Except FaultReport State → Except FaultReport State → Prop
  | completes (t : State) (f : Flags) : SameButFlags (.ok t) (.ok (t.setFlags f))
  | raises (r : FaultReport) : SameButFlags (.error r) (.error r)

/-- A register operand does not depend on the flags (30_encoding.md R54). -/
theorem sameButFlags_operand {v : Byte} {s : State} {f : Flags} {x y : RegIndex → Except FaultReport State}
    (h : ∀ i, SameButFlags (x i) (y i)) :
    SameButFlags (regOperand v s >>= x) (regOperand v (s.setFlags f) >>= y) := by
  have hsame : regOperand v (s.setFlags f) = regOperand v s := rfl
  rw [hsame]
  obtain ⟨hv, hok⟩ | ⟨-, herror⟩ := regOperand_cases v s
  · rw [hok]
    exact h _
  · rw [herror]
    exact .raises _

/-- The divisor check does not depend on the flags (41_alu.md R100). -/
theorem sameButFlags_checkDivisor {v : Byte} {s : State} {f : Flags} {x y : Unit → Except FaultReport State}
    (h : SameButFlags (x ()) (y ())) :
    SameButFlags (checkDivisor v s >>= x) (checkDivisor v (s.setFlags f) >>= y) := by
  have hsame : checkDivisor v (s.setFlags f) = checkDivisor v s := rfl
  rw [hsame]
  by_cases hv : v = 0
  · rw [checkDivisor_error s hv]
    exact .raises _
  · rw [checkDivisor_ok s hv]
    exact h

/-- The advance does not depend on the flags (40_sequencer.md R75). -/
theorem sameButFlags_advance (n : Nat) (s t : State) (f g : Flags) :
    SameButFlags (advance n s t) (advance n (s.setFlags f) (t.setFlags g)) := by
  by_cases h : s.pc.toNat + n < 256
  · rw [advance_ok t h, advance_ok (s := s.setFlags f) _ h]
    exact .completes _ g
  · rw [advance_error t h, advance_error (s := s.setFlags f) _ h]
    exact .raises _

/-- Chains that agree but for the flags answer next states that do. -/
theorem complete_sameButFlags {s t : State} {f : Flags} {x y : Except FaultReport State} (h : SameButFlags x y)
    (hx : complete s x = .next t) : ∃ g, complete (s.setFlags f) y = .next (t.setFlags g) := by
  cases h with
  | completes u g =>
    obtain rfl : u = t := Host.Outcome.next.inj hx
    exact ⟨g, rfl⟩
  | raises r =>
    obtain rfl : takeFault r s = t := Host.Outcome.next.inj hx
    exact ⟨f, rfl⟩

/-- The two-register ALU instructions do not read the flags. -/
theorem aluTwo_sameButFlags {op : AluOp} {a b : Byte} {s t : State} {f : Flags} (h : aluTwo op a b s = .next t) :
    ∃ g, aluTwo op a b (s.setFlags f) = .next (t.setFlags g) :=
  complete_sameButFlags (sameButFlags_operand fun _ => sameButFlags_operand fun _ => sameButFlags_advance ..) h

/-- An instruction that is no conditional jump does not read the flags. -/
theorem exec_sameButFlags {i : Instr} {s t : State} {f : Flags} (hi : jumpCondition f i = none)
    (h : exec i s = .next t) : ∃ g, exec i (s.setFlags f) = .next (t.setFlags g) := by
  cases i with
  | hlt => exact complete_sameButFlags (s := s) (f := f) (.completes (s.setRun .halted) f) h
  | ret =>
    rw [exec_ret] at h
    obtain rfl := Host.Outcome.next.inj h
    exact ⟨f, exec_ret _⟩
  | push a =>
    refine complete_sameButFlags (sameButFlags_operand fun _ => ?_) h
    simp only [pushByte_eq, except_ok_bind]
    exact sameButFlags_advance ..
  | pop a =>
    refine complete_sameButFlags (sameButFlags_operand fun _ => ?_) h
    simp only [topOfStack_eq, except_ok_bind]
    exact sameButFlags_advance ..
  | call a =>
    refine complete_sameButFlags (sameButFlags_operand fun _ => ?_) h
    simp only [pushByte_eq, except_ok_bind]
    exact .completes _ f
  | jmp a => exact complete_sameButFlags (sameButFlags_operand fun _ => .completes _ f) h
  | prn a | not a | ldi a imm =>
    exact complete_sameButFlags (sameButFlags_operand fun _ => sameButFlags_advance ..) h
  | cmp a b =>
    refine complete_sameButFlags (sameButFlags_operand fun i => sameButFlags_operand fun j => ?_) h
    exact sameButFlags_advance 3 s (s.setFlags (compareFlags (s.reg i) (s.reg j))) f _
  | mod a b =>
    exact complete_sameButFlags (sameButFlags_operand fun _ => sameButFlags_operand fun _ =>
      sameButFlags_checkDivisor (sameButFlags_advance ..)) h
  | add a b | sub a b | mul a b | and a b | or a b | xor a b | shl a b | shr a b => exact aluTwo_sameButFlags h
  | jeq a | jne a | jgt a | jlt a | jle a | jge a => cases hi

/-- Settles O21: the two next states differ in the flags alone. -/
theorem onlyConditionalJumpsReadFlags : Obligations.OnlyConditionalJumpsReadFlags := by
  intro i s t f hi h
  obtain ⟨g, hexec⟩ := exec_sameButFlags hi h
  exact ⟨t.setFlags g, hexec, fun _ => rfl, rfl, rfl, rfl, rfl⟩

end Sys2Proof.Machine
end

section
/-!
PROOF. The statements on sequences: a push seen by the next fetch, RET after CALL, a conditional jump after CMP, and the
stack as last in, first out. For the last, what the stack holds is a list, top first; a push conses to it and a pop takes
its head, across the wrap of the stack pointer.
-/

namespace Sys2Proof.Machine

/-! ## One instruction after another -/

/-- The byte fetched at an offset of 0, 1 or 2 is the one read there (40_sequencer.md R71). -/
theorem getElem?_fetched (m : Memory) (p : Nat) {k : Nat} (hk : k ≤ 2) :
    [m.read p, m.read (p + 1), m.read (p + 2)][k]? = some (m.read (p + k)) := by
  obtain rfl | rfl | rfl : k = 0 ∨ k = 1 ∨ k = 2 := by omega
  all_goals rfl

/-- Settles O24: the next fetch reads the memory the push left. -/
theorem pushedByteIsFetchedNext : Obligations.PushedByteIsFetchedNext := by
  intro c s a ha hs hrun hpc hi
  have hlt : s.pc.toNat + 2 < 256 := by omega
  set t := (pushed s ((decrementSp s).reg ⟨a.toNat, ha⟩)).setPc (BitVec.ofNat 8 (s.pc.toNat + 2)) with ht
  have hnext : t.pc.toNat = s.pc.toNat + 2 := toNat_advanced hlt
  refine ⟨t, (stepWith_of_decoded hrun hlt hi).trans (exec_push ha hlt), ofNat_toNat_add s.pc 2, fun k hk haddr => ?_⟩
  refine ⟨_, _, _, fetch_ok (by omega), ?_⟩
  rw [getElem?_fetched _ _ hk, ← haddr]
  exact congrArg some (read_pushed_self hs _)

/-- Settles O58: the byte at the stack pointer is the return address, and the increment undoes the decrement. -/
theorem returnFollowsCall : Obligations.ReturnFollowsCall := by
  intro a s t u ha hs hpc hcall hsp hmem
  rw [exec_call ha] at hcall
  obtain rfl := Host.Outcome.next.inj hcall
  have hsp' : u.sp.toNat = (s.sp.toNat + 255) % 256 := by
    rw [hsp]
    exact toNat_sp_decrementSp s
  refine ⟨_, exec_ret u, ?_, ?_⟩
  · rw [pc_incrementSp, State.pc_setPc, hmem, ← hsp, hsp', State.mem_setPc, read_pushed_self hs, toNat_returnAddress hpc]
  · have hincremented : (incrementSp (u.setPc (u.mem.read u.sp.toNat))).sp.toNat = (u.sp.toNat + 1) % 256 :=
      toNat_sp_incrementSp _
    have := byte_lt s.sp
    exact BitVec.eq_of_toNat_eq (by omega)

/-- A conditional jump whose condition holds exactly when `taken` does goes by `taken`. -/
theorem condJump_goes {cond : Flags → Bool} {taken : Prop} {d : Byte} (hd : namesRegister d) {u : State}
    (hpc : u.pc.toNat ≤ 253) (hcond : cond u.flags = true ↔ taken) :
    (taken → condJump cond d u = .next { u with pc := u.reg ⟨d.toNat, hd⟩ }) ∧
      (¬ taken → condJump cond d u = .next { u with pc := u.pc + 2 }) :=
  ⟨fun h => condJump_taken hd (hcond.2 h),
    fun h => condJump_not_taken d (Bool.eq_false_iff.2 fun hc => h (hcond.1 hc)) hpc⟩

/-- Settles O59: the flags are those of the compare, and under them each condition is an order of the two values. -/
theorem compareThenConditionalJump : Obligations.CompareThenConditionalJump := by
  intro a b d ha hb hd s t u hpc hcmp hflags hu x y goes
  rw [exec_cmp ha hb (by omega)] at hcmp
  obtain rfl := Host.Outcome.next.inj hcmp
  have hless : u.flags.less = decide (x < y) := by rw [hflags]; rfl
  have hgreater : u.flags.greater = decide (x > y) := by rw [hflags]; rfl
  have hequal : u.flags.equal = decide (x = y) := by rw [hflags]; rfl
  refine ⟨condJump_goes (cond := condJeq) hd hu ?_, condJump_goes (cond := condJne) hd hu ?_,
    condJump_goes (cond := condJge) hd hu ?_, condJump_goes (cond := condJgt) hd hu ?_,
    condJump_goes (cond := condJle) hd hu ?_, condJump_goes (cond := condJlt) hd hu ?_⟩
  · simp [condJeq, hequal]
  · simp [condJne, hequal]
  · simp only [condJge, hequal, hgreater, Bool.or_eq_true, decide_eq_true_iff]
    omega
  · simp [condJgt, hgreater]
  · simp only [condJle, hequal, hless, Bool.or_eq_true, decide_eq_true_iff]
    omega
  · simp [condJlt, hless]

/-! ## Instructions executed one after the other -/

/-- The first of a sequence of instructions. -/
theorem execAllAt_cons {p : Byte} {i : Instr} {s t : State} (h : exec i (s.setPc p) = .next t) (is : List Instr) :
    execAllAt p (i :: is) s = execAllAt p is t := by
  rw [execAllAt, h]

/-- A sequence of instructions, then another. -/
theorem execAllAt_append {p : Byte} {is js : List Instr} {s t : State} (h : execAllAt p is s = some t) :
    execAllAt p (is ++ js) s = execAllAt p js t := by
  induction is generalizing s with
  | nil =>
    obtain rfl : s = t := Option.some.inj h
    rfl
  | cons i is ih =>
    obtain ⟨u, hexec⟩ := exec_is_next i (s.setPc p)
    rw [execAllAt_cons hexec] at h
    rw [List.cons_append, execAllAt_cons hexec, ih h]

/-- The operand byte of a register has its number. -/
theorem toNat_regByte (r : RegIndex) : (regByte r).toNat = r.val := by
  rw [regByte, BitVec.toNat_ofNat]
  exact Nat.mod_eq_of_lt (r.isLt.trans (by decide))

/-- The operand byte of a register names one. -/
theorem namesRegister_regByte (r : RegIndex) : namesRegister (regByte r) := by
  rw [namesRegister, toNat_regByte]
  exact r.isLt

/-- The operand byte of a register names that register. -/
theorem index_regByte (r : RegIndex) : (⟨(regByte r).toNat, namesRegister_regByte r⟩ : RegIndex) = r :=
  Fin.ext (toNat_regByte r)

/-! ## What the stack holds -/

/-- The stack, from the stack pointer upward across the wrap, holds the bytes of the list, top first. -/
def StackHolds (s : State) (vs : List Byte) : Prop :=
  ∀ (i : Nat) (h : i < vs.length), s.mem.read ((s.sp.toNat + i) % 256) = vs[i]

/-- A push of another register than 7 puts its value on top, as long as the stack does not meet itself
(42_data_stack.md R112). -/
theorem exec_push_stackHolds {s : State} {p : Byte} {r : RegIndex} {vs : List Byte} (hs : s.MemoryCanonical)
    (hp : p.toNat ≤ 253) (hr : r ≠ 7) (hvs : StackHolds s vs) (hroom : vs.length < 256) :
    ∃ t, exec (.push (regByte r)) (s.setPc p) = .next t ∧ t.MemoryCanonical ∧
      t.sp.toNat = (s.sp.toNat + 255) % 256 ∧ SameRegistersBut 7 s t ∧ StackHolds t (s.reg r :: vs) := by
  have hsp : ((decrementSp (s.setPc p)).reg 7).toNat = (s.sp.toNat + 255) % 256 := toNat_sp_decrementSp (s.setPc p)
  refine ⟨_, exec_push (namesRegister_regByte r) (show p.toNat + 2 < 256 by omega),
    Memory.write_wf hs (byte_lt _) _, hsp, fun k hk => reg_decrementSp_ne (s.setPc p) hk, ?_⟩
  rw [index_regByte, reg_decrementSp_ne (s.setPc p) hr, State.reg_setPc]
  intro i hi
  rw [State.sp_eq_reg, State.reg_setPc, reg_pushed, hsp, State.mem_setPc]
  cases i with
  | zero =>
    rw [Nat.add_zero, Nat.mod_mod]
    exact read_pushed_self (s := s.setPc p) hs _
  | succ i =>
    rw [List.length_cons] at hi
    have hcell : ((s.sp.toNat + 255) % 256 + (i + 1)) % 256 = (s.sp.toNat + i) % 256 := by omega
    have hother : (s.sp.toNat + i) % 256 ≠ (s.sp.toNat + 255) % 256 := by omega
    rw [hcell, read_pushed_ne (s.setPc p) _ hother]
    exact hvs i (by omega)

/-- A pop into another register than 7 takes the top (42_data_stack.md R113). -/
theorem exec_pop_stackHolds {s : State} {p : Byte} {d : RegIndex} {v : Byte} {vs : List Byte} (hp : p.toNat ≤ 253)
    (hd : d ≠ 7) (hvs : StackHolds s (v :: vs)) :
    ∃ t, exec (.pop (regByte d)) (s.setPc p) = .next t ∧ t.sp.toNat = (s.sp.toNat + 1) % 256 ∧ t.reg d = v ∧
      (∀ k, k ≠ 7 → k ≠ d → t.reg k = s.reg k) ∧ StackHolds t vs := by
  have htop : s.mem.read s.sp.toNat = v := by
    simpa [Nat.mod_eq_of_lt (byte_lt s.sp)] using hvs 0 (Nat.succ_pos _)
  have hexec := exec_pop (s := s.setPc p) (namesRegister_regByte d) (show p.toNat + 2 < 256 by omega)
  rw [index_regByte] at hexec
  have hsp : (incrementSp ((s.setPc p).setReg d (s.mem.read s.sp.toNat))).sp.toNat = (s.sp.toNat + 1) % 256 := by
    rw [toNat_sp_incrementSp, State.sp_eq_reg, State.reg_setReg_ne _ _ hd.symm, State.reg_setPc, State.sp_eq_reg]
  refine ⟨_, hexec, hsp, ?_, fun k hk7 hkd => ?_, fun i hi => ?_⟩
  · rw [State.reg_setPc, reg_incrementSp_ne _ hd, State.reg_setReg_self]
    exact htop
  · rw [State.reg_setPc, reg_incrementSp_ne _ hk7, State.reg_setReg_ne _ _ hkd, State.reg_setPc]
  · have hcell : ((s.sp.toNat + 1) % 256 + i) % 256 = (s.sp.toNat + (i + 1)) % 256 := by omega
    have hread := hvs (i + 1) (Nat.succ_lt_succ hi)
    rw [← hcell, ← hsp] at hread
    exact hread

/-- Pushing registers puts their values on the stack, the last on top. -/
theorem execAllAt_pushes {p : Byte} (hp : p.toNat ≤ 253) {rs : List RegIndex} (hrs : 7 ∉ rs) {s : State}
    {vs : List Byte} (hs : s.MemoryCanonical) (hvs : StackHolds s vs) (hroom : rs.length + vs.length ≤ 256) :
    ∃ t, execAllAt p (rs.map fun r => .push (regByte r)) s = some t ∧
      t.sp.toNat = (s.sp.toNat + 256 - rs.length) % 256 ∧ SameRegistersBut 7 s t ∧
      StackHolds t ((rs.map s.reg).reverse ++ vs) := by
  induction rs generalizing s vs with
  | nil =>
    have hlt := byte_lt s.sp
    exact ⟨s, rfl, by rw [List.length_nil]; omega, fun _ _ => rfl, hvs⟩
  | cons r rs ih =>
    rw [List.length_cons] at hroom
    rw [List.mem_cons, not_or] at hrs
    obtain ⟨u, hexec, hu, husp, huregs, huvs⟩ := exec_push_stackHolds hs hp (Ne.symm hrs.1) hvs (by omega)
    obtain ⟨t, hrun, htsp, htregs, htvs⟩ := ih hrs.2 hu huvs (by rw [List.length_cons]; omega)
    have hvalues : rs.map u.reg = rs.map s.reg :=
      List.map_congr_left fun k hk => huregs k fun e => hrs.2 (e ▸ hk)
    refine ⟨t, ?_, ?_, fun k hk => (htregs k hk).trans (huregs k hk), ?_⟩
    · rw [List.map_cons, execAllAt_cons hexec, hrun]
    · rw [htsp, husp, List.length_cons]
      omega
    · rw [hvalues] at htvs
      simpa using htvs

/-- Popping takes as many values off the stack and changes only the registers popped into. -/
theorem execAllAt_pops {p : Byte} (hp : p.toNat ≤ 253) {ds : List RegIndex} (hds : 7 ∉ ds) {s : State}
    {vs : List Byte} (hvs : StackHolds s vs) (hlen : ds.length ≤ vs.length) :
    ∃ t, execAllAt p (ds.map fun r => .pop (regByte r)) s = some t ∧
      t.sp.toNat = (s.sp.toNat + ds.length) % 256 ∧ (∀ k, k ≠ 7 → k ∉ ds → t.reg k = s.reg k) ∧
      StackHolds t (vs.drop ds.length) := by
  induction ds generalizing s vs with
  | nil => exact ⟨s, rfl, (Nat.mod_eq_of_lt (byte_lt s.sp)).symm, fun _ _ _ => rfl, hvs⟩
  | cons d ds ih =>
    rw [List.mem_cons, not_or] at hds
    cases vs with
    | nil => simp at hlen
    | cons v vs =>
      rw [List.length_cons, List.length_cons] at hlen
      obtain ⟨u, hexec, husp, -, huregs, huvs⟩ := exec_pop_stackHolds hp (Ne.symm hds.1) hvs
      obtain ⟨t, hrun, htsp, htregs, htvs⟩ := ih hds.2 huvs (by omega)
      refine ⟨t, ?_, ?_, fun k hk7 hk => ?_, htvs⟩
      · rw [List.map_cons, execAllAt_cons hexec, hrun]
      · rw [htsp, husp, List.length_cons]
        omega
      · rw [List.mem_cons, not_or] at hk
        rw [htregs k hk7 hk.2, huregs k hk7 hk.1]

/-- Settles O57: the pushes leave the values reversed, the first pops drop the front of them, and the last pop takes the
next. -/
theorem stackIsLastInFirstOut : Obligations.StackIsLastInFirstOut := by
  intro s p rs ds d hs hp hrs hds hd hroom hn
  obtain ⟨t₁, hpushes, hsp₁, hregs₁, hvs₁⟩ :=
    execAllAt_pushes hp hrs (vs := []) hs (fun i hi => absurd hi (Nat.not_lt_zero i)) hroom
  have hlen : ds.length < ((rs.map s.reg).reverse ++ []).length := by simpa using hn
  obtain ⟨t₂, hpops, hsp₂, hregs₂, hvs₂⟩ := execAllAt_pops hp hds hvs₁ hlen.le
  rw [List.drop_eq_getElem_cons hlen] at hvs₂
  obtain ⟨t, hpop, hsp, hreg, hregs, -⟩ := exec_pop_stackHolds hp hd hvs₂
  refine ⟨t, ?_, ?_, ?_, fun k hk7 hkds hkd => ?_⟩
  · rw [List.append_assoc, execAllAt_append hpushes, execAllAt_append hpops, execAllAt_cons hpop]
    rfl
  · rw [hreg]
    simp [List.getElem_reverse]
  · rw [hsp, hsp₂, hsp₁]
    omega
  · rw [hregs k hk7 hkd, hregs₂ k hk7 hkds, hregs₁ k hk7]

end Sys2Proof.Machine
end
